-- ==== Sys2Proof/Word.lean ====
section
/-! DEFINITION. The words of the machine (spec/00_scope.md R8, R9; spec/10_state.md R13 to R19). Every value is unsigned;
the wrapping arithmetic of R9 (`+_8`, `-_8`, `+_16`, `<<_64`) is the arithmetic of bit vectors of that width. -/

namespace Sys2Proof

/-- The width of a general register and of a memory cell (R13, R28). -/
abbrev Byte := BitVec 8

/-- The width of I, PC and SP and of an instruction word (R16, R17, R18, R44). -/
abbrev Word := BitVec 16

/-- The width of the state of the pseudo-random generator (R19). -/
abbrev DWord := BitVec 64

/-- A 12-bit address immediate, the field nnn (R45). -/
abbrev Addr12 := BitVec 12

/-- The number of a general register: V[0] to V[15] (R13); every 4-bit value is a valid register (R48). -/
abbrev RegIdx := Fin 16

end Sys2Proof
end

