-- ==== Sys2Proof/Syntax.lean ====
section
/-! DEFINITION. The instructions of spec/30_encoding.md R50, one constructor for each of the 24 rows of
spec/opcode_table.json, in the table's order. The operands are the fields R47 gives the row's format. -/

namespace Sys2Proof

/-- One constructor per row of R50. `x` and `y` are register numbers, `nn` an 8-bit immediate, `nnn` a 12-bit address,
`n` a count of sprite rows (a natural number; that it fits its four bits is `Instr.wellFormed`). -/
inductive Instr where
  /-- `CLS` 00E0, clear display (R89). -/
  | cls
  /-- `RET` 00EE, return from subroutine (R62). -/
  | ret
  /-- `JP nnn` 1nnn, jump, or halt on its own address (R61). -/
  | jp (nnn : Addr12)
  /-- `CALL nnn` 2nnn, call subroutine (R63). -/
  | call (nnn : Addr12)
  /-- `SE Vx, nn` 3xnn, skip if equal to immediate (R64). -/
  | seImm (x : RegIdx) (nn : Byte)
  /-- `SNE Vx, nn` 4xnn, skip if not equal to immediate (R65). -/
  | sneImm (x : RegIdx) (nn : Byte)
  /-- `SE Vx, Vy` 5xy0, skip if registers equal (R66). -/
  | seReg (x y : RegIdx)
  /-- `LD Vx, nn` 6xnn, load immediate (R68). -/
  | ldImm (x : RegIdx) (nn : Byte)
  /-- `ADD Vx, nn` 7xnn, add immediate (R69). -/
  | addImm (x : RegIdx) (nn : Byte)
  /-- `LD Vx, Vy` 8xy0, assign (R70). -/
  | ldReg (x y : RegIdx)
  /-- `OR Vx, Vy` 8xy1 (R71). -/
  | orReg (x y : RegIdx)
  /-- `AND Vx, Vy` 8xy2 (R72). -/
  | andReg (x y : RegIdx)
  /-- `XOR Vx, Vy` 8xy3 (R73). -/
  | xorReg (x y : RegIdx)
  /-- `ADD Vx, Vy` 8xy4, add with carry out (R74). -/
  | addReg (x y : RegIdx)
  /-- `SUB Vx, Vy` 8xy5, subtract with inverted borrow (R75). -/
  | subReg (x y : RegIdx)
  /-- `SHR Vx` 8xy6, logical shift right by 1; `y` is decoded and ignored (R76). -/
  | shr (x y : RegIdx)
  /-- `SUBN Vx, Vy` 8xy7, reverse subtract with inverted borrow (R77). -/
  | subnReg (x y : RegIdx)
  /-- `SHL Vx` 8xyE, logical shift left by 1; `y` is decoded and ignored (R78). -/
  | shl (x y : RegIdx)
  /-- `LD I, nnn` Annn, set address register (R80). -/
  | ldI (nnn : Addr12)
  /-- `RND Vx, nn` Cxnn, random AND immediate (R86). -/
  | rnd (x : RegIdx) (nn : Byte)
  /-- `DRW Vx, Vy, n` Dxyn, draw a sprite of n rows (R90). -/
  | drw (x y : RegIdx) (n : Nat)
  /-- `ADD I, Vx` Fx1E, add register to address register (R81). -/
  | addI (x : RegIdx)
  /-- `LD [I], Vx` Fx55, store block V[0]..V[x] (R82). -/
  | storeBlock (x : RegIdx)
  /-- `LD Vx, [I]` Fx65, load block V[0]..V[x] (R83). -/
  | loadBlock (x : RegIdx)
  deriving DecidableEq, Repr

end Sys2Proof
end

