-- ==== Sys2Proof/WellFormed.lean ====
section
/-! DEFINITION. Which instructions have an encoding (spec/30_encoding.md R45, R48). The operand types carry the ranges of
x, y, nn and nnn, so that no instruction with such an operand out of range can be written; one check is left: the row count
n of DRW is a natural number and its field has four bits. -/

namespace Sys2Proof

/-- The operands fit the fields of the instruction's format (R45: n ranges over 0..15). -/
def Instr.wellFormed : Instr → Bool
  | .drw _ _ n => n < 16
  | .cls | .ret | .jp _ | .call _ | .seImm _ _ | .sneImm _ _ | .seReg _ _ | .ldImm _ _ | .addImm _ _ | .ldReg _ _
  | .orReg _ _ | .andReg _ _ | .xorReg _ _ | .addReg _ _ | .subReg _ _ | .shr _ _ | .subnReg _ _ | .shl _ _ | .ldI _
  | .rnd _ _ | .addI _ | .storeBlock _ | .loadBlock _ => true

end Sys2Proof
end

