-- ==== Sys2Proof/Decode.lean ====
section
/-! DEFINITION. The decoder (spec/30_encoding.md R44 to R53), the encoder, and the opcode map of R50 as a list of masked
patterns. The decoder is the dispatcher of R49 (a key nibble and, for primaries 0, 5, 8 and F, a selector); the map is the
spec's own second description of the same thing. -/

namespace Sys2Proof

/-! ### The fields of a word (R45) -/

/-- The dispatch key: the high nibble of byte 0. -/
def fieldOp (w : Word) : BitVec 4 := w.extractLsb' 12 4

/-- x: the low nibble of byte 0, a register number. -/
def fieldX (w : Word) : RegIdx := (w.extractLsb' 8 4).toFin

/-- y: the high nibble of byte 1, a register number. -/
def fieldY (w : Word) : RegIdx := (w.extractLsb' 4 4).toFin

/-- n: the low nibble of byte 1. -/
def fieldN (w : Word) : BitVec 4 := w.extractLsb' 0 4

/-- nn: byte 1. -/
def fieldNN (w : Word) : Byte := w.extractLsb' 0 8

/-- nnn: the low nibble of byte 0 and byte 1. -/
def fieldNNN (w : Word) : Addr12 := w.extractLsb' 0 12

/-! ### The decoder -/

/-- Why bytes are no instruction. -/
inductive DecodeReject where
  /-- The word selects no row of R50: the unimplemented space of R51. Executing it raises `UnimplementedInstruction`. -/
  | unimplemented (w : Word)
  /-- Fewer than the two bytes every instruction has (R44). The step never meets it: a fetch gives two bytes or faults. -/
  | tooShort
  deriving DecidableEq, Repr

/-- Primary 0: the whole word selects (R49; R52 requires x = 0). -/
def decodeZero (w : Word) : Except DecodeReject Instr :=
  if w = 0x00E0#16 then .ok .cls
  else if w = 0x00EE#16 then .ok .ret
  else .error (.unimplemented w)

/-- Primary 5: the low nibble has to be 0 (R52). -/
def decodeFive (w : Word) : Except DecodeReject Instr :=
  if fieldN w = 0x0#4 then .ok (.seReg (fieldX w) (fieldY w)) else .error (.unimplemented w)

/-- Primary 8: the low nibble selects the operation (R49). -/
def decodeEight (w : Word) : Except DecodeReject Instr :=
  match fieldN w with
  | 0x0#4 => .ok (.ldReg (fieldX w) (fieldY w))
  | 0x1#4 => .ok (.orReg (fieldX w) (fieldY w))
  | 0x2#4 => .ok (.andReg (fieldX w) (fieldY w))
  | 0x3#4 => .ok (.xorReg (fieldX w) (fieldY w))
  | 0x4#4 => .ok (.addReg (fieldX w) (fieldY w))
  | 0x5#4 => .ok (.subReg (fieldX w) (fieldY w))
  | 0x6#4 => .ok (.shr (fieldX w) (fieldY w))
  | 0x7#4 => .ok (.subnReg (fieldX w) (fieldY w))
  | 0xE#4 => .ok (.shl (fieldX w) (fieldY w))
  | _ => .error (.unimplemented w)

/-- Primary F: byte 1 selects (R49). -/
def decodeFifteen (w : Word) : Except DecodeReject Instr :=
  match fieldNN w with
  | 0x1E#8 => .ok (.addI (fieldX w))
  | 0x55#8 => .ok (.storeBlock (fieldX w))
  | 0x65#8 => .ok (.loadBlock (fieldX w))
  | _ => .error (.unimplemented w)

/-- The decoder of one word: total, without state (R46), dispatching on the key nibble (R49). Primaries 9, B and E are
unimplemented (R51). -/
def decodeWord (w : Word) : Except DecodeReject Instr :=
  match fieldOp w with
  | 0x0#4 => decodeZero w
  | 0x1#4 => .ok (.jp (fieldNNN w))
  | 0x2#4 => .ok (.call (fieldNNN w))
  | 0x3#4 => .ok (.seImm (fieldX w) (fieldNN w))
  | 0x4#4 => .ok (.sneImm (fieldX w) (fieldNN w))
  | 0x5#4 => decodeFive w
  | 0x6#4 => .ok (.ldImm (fieldX w) (fieldNN w))
  | 0x7#4 => .ok (.addImm (fieldX w) (fieldNN w))
  | 0x8#4 => decodeEight w
  | 0xA#4 => .ok (.ldI (fieldNNN w))
  | 0xC#4 => .ok (.rnd (fieldX w) (fieldNN w))
  | 0xD#4 => .ok (.drw (fieldX w) (fieldY w) (fieldN w).toNat)
  | 0xF#4 => decodeFifteen w
  | _ => .error (.unimplemented w)

/-- The instruction word of two bytes, the first at the lower address and most significant (R34, R44). -/
def wordOfBytes (b0 b1 : Byte) : Word := b0 ++ b1

/-- The high byte of a word: byte 0 of an instruction, the lower addressed byte of a return address (R34). -/
def highByte (w : Word) : Byte := w.extractLsb' 8 8

/-- The low byte of a word. -/
def lowByte (w : Word) : Byte := w.extractLsb' 0 8

/-- The decoder of a byte stream: it always consumes two bytes (R44) and gives back the rest. -/
def decode : List Byte → Except DecodeReject (Instr × List Byte)
  | b0 :: b1 :: rest =>
    match decodeWord (wordOfBytes b0 b1) with
    | .ok i => .ok (i, rest)
    | .error r => .error r
  | _ => .error .tooShort

/-! ### The encoder (R47, R50) -/

/-- The format `XK`: a register and a byte. -/
def encodeXK (op : BitVec 4) (x : RegIdx) (nn : Byte) : Word := op ++ (BitVec.ofFin x : BitVec 4) ++ nn

/-- The formats `XY` and `XYN`: a register pair and a nibble. -/
def encodeXYN (op : BitVec 4) (x y : RegIdx) (n : BitVec 4) : Word :=
  op ++ (BitVec.ofFin x : BitVec 4) ++ (BitVec.ofFin y : BitVec 4) ++ n

/-- The format `A`: a 12-bit address. -/
def encodeA (op : BitVec 4) (nnn : Addr12) : Word := op ++ nnn

/-- The word of a well-formed instruction, written from the patterns of R50. -/
def encode : Instr → Word
  | .cls => 0x00E0#16
  | .ret => 0x00EE#16
  | .jp nnn => encodeA 0x1#4 nnn
  | .call nnn => encodeA 0x2#4 nnn
  | .seImm x nn => encodeXK 0x3#4 x nn
  | .sneImm x nn => encodeXK 0x4#4 x nn
  | .seReg x y => encodeXYN 0x5#4 x y 0x0#4
  | .ldImm x nn => encodeXK 0x6#4 x nn
  | .addImm x nn => encodeXK 0x7#4 x nn
  | .ldReg x y => encodeXYN 0x8#4 x y 0x0#4
  | .orReg x y => encodeXYN 0x8#4 x y 0x1#4
  | .andReg x y => encodeXYN 0x8#4 x y 0x2#4
  | .xorReg x y => encodeXYN 0x8#4 x y 0x3#4
  | .addReg x y => encodeXYN 0x8#4 x y 0x4#4
  | .subReg x y => encodeXYN 0x8#4 x y 0x5#4
  | .shr x y => encodeXYN 0x8#4 x y 0x6#4
  | .subnReg x y => encodeXYN 0x8#4 x y 0x7#4
  | .shl x y => encodeXYN 0x8#4 x y 0xE#4
  | .ldI nnn => encodeA 0xA#4 nnn
  | .rnd x nn => encodeXK 0xC#4 x nn
  | .drw x y n => encodeXYN 0xD#4 x y (BitVec.ofNat 4 n)
  | .addI x => encodeXK 0xF#4 x 0x1E#8
  | .storeBlock x => encodeXK 0xF#4 x 0x55#8
  | .loadBlock x => encodeXK 0xF#4 x 0x65#8

/-- The two bytes of an instruction, in address order (R34). -/
def encodeBytes (i : Instr) : List Byte := [highByte (encode i), lowByte (encode i)]

/-! ### The opcode map (R50) -/

/-- A row of the map: its number (the column # of R50), `match` and `mask`. -/
structure OpcodeRow where
  number : Nat
  matchBits : Word
  mask : Word
  deriving DecidableEq, Repr

/-- A word selects the row when `w & mask == match` (R50). -/
def OpcodeRow.selects (r : OpcodeRow) (w : Word) : Bool := w &&& r.mask == r.matchBits

/-- The row of R50 that an instruction stands in. -/
def Instr.row : Instr → OpcodeRow
  | .cls => ⟨1, 0x00E0#16, 0xFFFF#16⟩
  | .ret => ⟨2, 0x00EE#16, 0xFFFF#16⟩
  | .jp _ => ⟨3, 0x1000#16, 0xF000#16⟩
  | .call _ => ⟨4, 0x2000#16, 0xF000#16⟩
  | .seImm _ _ => ⟨5, 0x3000#16, 0xF000#16⟩
  | .sneImm _ _ => ⟨6, 0x4000#16, 0xF000#16⟩
  | .seReg _ _ => ⟨7, 0x5000#16, 0xF00F#16⟩
  | .ldImm _ _ => ⟨8, 0x6000#16, 0xF000#16⟩
  | .addImm _ _ => ⟨9, 0x7000#16, 0xF000#16⟩
  | .ldReg _ _ => ⟨10, 0x8000#16, 0xF00F#16⟩
  | .orReg _ _ => ⟨11, 0x8001#16, 0xF00F#16⟩
  | .andReg _ _ => ⟨12, 0x8002#16, 0xF00F#16⟩
  | .xorReg _ _ => ⟨13, 0x8003#16, 0xF00F#16⟩
  | .addReg _ _ => ⟨14, 0x8004#16, 0xF00F#16⟩
  | .subReg _ _ => ⟨15, 0x8005#16, 0xF00F#16⟩
  | .shr _ _ => ⟨16, 0x8006#16, 0xF00F#16⟩
  | .subnReg _ _ => ⟨17, 0x8007#16, 0xF00F#16⟩
  | .shl _ _ => ⟨18, 0x800E#16, 0xF00F#16⟩
  | .ldI _ => ⟨19, 0xA000#16, 0xF000#16⟩
  | .rnd _ _ => ⟨20, 0xC000#16, 0xF000#16⟩
  | .drw _ _ _ => ⟨21, 0xD000#16, 0xF000#16⟩
  | .addI _ => ⟨22, 0xF01E#16, 0xF0FF#16⟩
  | .storeBlock _ => ⟨23, 0xF055#16, 0xF0FF#16⟩
  | .loadBlock _ => ⟨24, 0xF065#16, 0xF0FF#16⟩

/-- The opcode map: the 24 rows of R50, in order. -/
def opcodeMap : List OpcodeRow :=
  [Instr.cls.row, Instr.ret.row, (Instr.jp 0).row, (Instr.call 0).row, (Instr.seImm 0 0).row, (Instr.sneImm 0 0).row,
   (Instr.seReg 0 0).row, (Instr.ldImm 0 0).row, (Instr.addImm 0 0).row, (Instr.ldReg 0 0).row, (Instr.orReg 0 0).row,
   (Instr.andReg 0 0).row]
  ++ [(Instr.xorReg 0 0).row, (Instr.addReg 0 0).row, (Instr.subReg 0 0).row, (Instr.shr 0 0).row, (Instr.subnReg 0 0).row,
   (Instr.shl 0 0).row, (Instr.ldI 0).row, (Instr.rnd 0 0).row, (Instr.drw 0 0 0).row, (Instr.addI 0).row,
   (Instr.storeBlock 0).row, (Instr.loadBlock 0).row]

/-! ### The host's window on the decoder -/

/-- The word whose bits 0 to `nbits` - 1 are those of `w`, its other bits 0. Every instruction is one 16-bit word, so the
table's numbering of bits is the word's own (bit 0 the least significant bit of byte 1, R8). -/
def tableWord (nbits w : Nat) : Word := BitVec.ofNat 16 (w % 2 ^ nbits)

/-- The instruction the decoder reads from the bits of an opcode-table row, laid out big-endian as R34 stores them. -/
def decodeTableWord (nbits w : Nat) : Option Instr :=
  match decode [highByte (tableWord nbits w), lowByte (tableWord nbits w)] with
  | .ok (i, _) => some i
  | .error _ => none

end Sys2Proof
end

