-- ==== Sys2Proof/Config.lean ====
section
/-! DEFINITION. The configuration record of spec/00_scope.md R6: what an implementation fixes. It is no state (R26).
The values of this hardware are `Sys2Proof.Machine.config` (Sys2Proof/Machine/Params.lean). NREGS, REG_W and ADDR_W of
R6 are in the types (Sys2Proof/Word.lean); STEP_DELAY is left out, since no rule reads it (R110; assumption entry 23). -/

namespace Sys2Proof

/-- The configuration record of R6, under the names the spec gives its parameters. -/
structure Config where
  /-- MEM_SIZE: bytes of unified memory. -/
  memSize : Nat
  /-- PROG_BASE: program load offset and reset PC. -/
  progBase : Nat
  /-- STACK_LIMIT: lowest byte address of the call-stack region. -/
  stackLimit : Nat
  /-- STACK_BASE: reset value of SP, one past the highest call-stack byte. -/
  stackBase : Nat
  /-- FB_BASE: first byte of the framebuffer region. -/
  fbBase : Nat
  /-- SCREEN_W: screen width in pixels. -/
  screenW : Nat
  /-- SCREEN_H: screen height in pixels. -/
  screenH : Nat
  /-- SEED: the initial state of the generator, a launch input. -/
  seed : DWord
  /-- BLOCK_ADVANCE_I: whether the block transfers advance I. -/
  blockAdvanceI : Bool
  deriving DecidableEq, Repr

/-- FB_SIZE, derived in R6: one bit per pixel, 8 pixels per byte. -/
def Config.fbSize (c : Config) : Nat := c.screenW * c.screenH / 8

/-- The constraints R6 puts on an instantiation. -/
structure Config.Valid (c : Config) : Prop where
  progFits : c.progBase + 1 < c.memSize
  stackHasASlot : c.stackLimit + 2 ≤ c.stackBase
  stackFits : c.stackBase ≤ c.memSize
  stackEven : (c.stackBase - c.stackLimit) % 2 = 0
  fbFits : c.fbBase + c.fbSize ≤ c.memSize
  memFits : c.memSize ≤ 2 ^ 16

end Sys2Proof
end

