-- ==== Sys2Proof/Machine/Params.lean ====
section
/-! DEFINITION. The configuration of this hardware: the values spec/00_scope.md R6 prints or decides (decisions D1, D2, D3,
D20, D21). MARK: DESIGN CHOICE, unsafe (assumption entries 3, 5, 19): the model fixes the defaults, where R6 would let it
keep the parameters free. -/

namespace Sys2Proof.Machine

/-- The configuration record of R6 at its values. The seed 0x1 is the start-state convention of spec/95_test_vectors.md;
every launch may choose another (`State.construct` takes it as an argument). -/
def config : Config where
  memSize := 4096
  progBase := 0x200
  stackLimit := 0xEA0
  stackBase := 0xF00
  fbBase := 0xF00
  screenW := 64
  screenH := 32
  seed := 0x1
  blockAdvanceI := true

/-- What a byte of memory reads as that nothing has written: 0 (spec/10_state.md R27, decision D17; entry 6). -/
def unlistedByte : Byte := 0x00#8

end Sys2Proof.Machine
end

