-- ==== Sys2Proof/Machine/State.lean ====
section
/-! DEFINITION. The state of the engine (spec/10_state.md): every piece the spec names, as plain data, and its value at
reset (R27). INVENTORY.md, '## State', lists each field with its rule. -/

namespace Sys2Proof.Machine

/-- What a memory access is for (spec/20_memory.md R29; recorded by `MemoryOutOfRange`). -/
inductive Access where
  | fetch
  | read
  | write
  deriving DecidableEq, Repr

/-- The four faults of spec/60_exceptions.md R92 with the info each records. They are part of the engine's STATE (its status
output, R22), not a stop of the model: a step that raises one has a next state (assumption entry 1). -/
inductive EngineFault where
  /-- Code 1: the fetched word `w` at `pc0` selects no row of R50. Raised by every step, after the fetch. -/
  | unimplementedInstruction (w : Word) (pc0 : Word)
  /-- Code 2: a byte access at `addr`, at or above MEM_SIZE. Raised by the fetch, DRW, the block transfers (and by any other
  byte access that gets there). -/
  | memoryOutOfRange (addr : Nat) (access : Access) (pc0 : Word)
  /-- Code 3: CALL on a full stack. -/
  | stackOverflow (sp : Word) (pc0 : Word)
  /-- Code 4: RET on an empty stack. -/
  | stackUnderflow (sp : Word) (pc0 : Word)
  deriving DecidableEq, Repr

/-- The engine status (R22). -/
inductive Status where
  | running
  | halted
  | faulted (f : EngineFault)
  deriving DecidableEq, Repr

/-- A call on the render port (spec/20_memory.md R41). -/
inductive RenderCall where
  | clear
  | drawPx (x y : Nat)
  | clearPx (x y : Nat)
  | present
  deriving DecidableEq, Repr

/-- Memory as (address, byte) pairs: the addresses strictly rising, no entry equal to what an unlisted address reads as
(`Memory.wf`). -/
abbrev Memory := List Host.Cell

/-- The whole state of the engine (spec/10_state.md, the State record, with the render output of R24). -/
structure State where
  /-- V[0]..V[15], the general registers (R13); V[15] is VF (R14). -/
  v : Vector Byte 16
  /-- I, the address register (R16). -/
  i : Word
  /-- PC; during a step, the address of the instruction being executed (R17). -/
  pc : Word
  /-- SP, the stack pointer (R18). -/
  sp : Word
  /-- M, the unified memory (spec/20_memory.md R28, R29). -/
  mem : Memory
  /-- RNG, the generator's state (R19). -/
  rng : DWord
  /-- The status output (R22). -/
  status : Status
  /-- prog_len, the length of the loaded program; nothing reads it (R23). -/
  progLen : Nat
  /-- The render-port output so far, oldest call first; the engine never reads it (R24). -/
  render : List RenderCall
  deriving DecidableEq, Repr

/-- Why a step has no next state. -/
inductive Fault where
  /-- The engine is not Running: "In `Halted` or `Faulted` the engine has no step" (spec/40_control_flow.md R57). Raised by
  `step` alone, with the status it found. Safe: nothing is claimed of a step that does not exist (entry 2). -/
  | notRunning (status : Status)
  deriving DecidableEq, Repr

/-- Why the model gives no state. -/
inductive Refusal where
  /-- An instruction without a meaning in the model; raised by no arm now. Safe: the model stops. -/
  | notModelled (mnemonic : String)
  /-- `LoadFailure` of spec/70_reset_and_hazards.md R105: a program of `len` bytes does not fit and no engine is produced.
  Raised by `load` alone. Safe (decision D25; entry 24). -/
  | loadFailure (len : Nat)
  deriving DecidableEq, Repr

/-- Construction with a seed (spec/70_reset_and_hazards.md R104; values of spec/10_state.md R27): all registers zeroed, PC at
PROG_BASE, SP at STACK_BASE, RNG the launch input, memory all 0, no program loaded yet. -/
def State.construct (seed : DWord) : State where
  v := Vector.replicate 16 0
  i := 0
  pc := BitVec.ofNat 16 config.progBase
  sp := BitVec.ofNat 16 config.stackBase
  mem := []
  rng := seed
  status := .running
  progLen := 0
  render := []

/-- The machine right after reset (R27), before a program is loaded. RNG holds the seed `config.seed`, MARK: DESIGN CHOICE,
unsafe (entry 3). -/
def State.reset : State := State.construct config.seed

end Sys2Proof.Machine
end

