-- ==== Sys2Proof/Machine/Ops.lean ====
section
/-! DEFINITION. The named operations over registers, memory, the render port and the status: the only places that read or
write a field of State. Partial effects and faults (spec/20_memory.md R40, spec/60_exceptions.md R93) are handled once, by
`Effect`; raising a fault is one operation, `raise`. There is no return from a fault (R97). -/

namespace Sys2Proof.Machine

/-- The three outcomes of a step, at this machine's types. -/
abbrev Outcome := Host.Outcome State Fault Refusal

/-! ### Registers -/

/-- The number of VF (spec/10_state.md R14). -/
def vf : RegIdx := 15

/-- V[r] (R13). -/
def State.reg (s : State) (r : RegIdx) : Byte := s.v[r.val]

/-- `V[r] <- b` (R13). -/
def State.setReg (s : State) (r : RegIdx) (b : Byte) : State := { s with v := s.v.set r b }

/-- `I <- w` (R16). -/
def State.setI (s : State) (w : Word) : State := { s with i := w }

/-- `PC <- w` (R17). -/
def State.setPc (s : State) (w : Word) : State := { s with pc := w }

/-- `SP <- w` (R18). -/
def State.setSp (s : State) (w : Word) : State := { s with sp := w }

/-- `RNG <- d` (R19). -/
def State.setRng (s : State) (d : DWord) : State := { s with rng := d }

/-- The status output becomes `st` (R22). -/
def State.setStatus (s : State) (st : Status) : State := { s with status := st }

/-- `prog_len <- n` (R23). -/
def State.setProgLen (s : State) (n : Nat) : State := { s with progLen := n }

/-- `emit c`: one more call on the render port, in order (spec/20_memory.md R41). -/
def State.emit (s : State) (c : RenderCall) : State := { s with render := s.render ++ [c] }

/-! ### Memory -/

/-- The byte at an address; an unlisted address reads as `unlistedByte`. -/
def Memory.lookup : Memory → Nat → Byte
  | [], _ => unlistedByte
  | (b, v) :: m, a => if a = b then v else Memory.lookup m a

/-- Memory with the byte at `a` unlisted. -/
def Memory.erase (m : Memory) (a : Nat) : Memory := m.filter fun c => c.1 != a

/-- Memory with `v` listed at `a`, before the first entry of a higher address. -/
def Memory.insert : Memory → Nat → Byte → Memory
  | [], a, v => [(a, v)]
  | (b, w) :: m, a, v =>
    if a < b then (a, v) :: (b, w) :: m
    else if a = b then (a, v) :: m
    else (b, w) :: Memory.insert m a v

/-- Memory with `v` at address `a`: writing what an unlisted address reads as removes the entry, so that the canonical form is
kept. -/
def Memory.store (m : Memory) (a : Nat) (v : Byte) : Memory :=
  if v = unlistedByte then Memory.erase m a else Memory.insert m a v

/-- The canonical form from address `lo` up: addresses strictly rising and inside memory, no byte that an unlisted address
would read as. -/
def Memory.wfFrom : Nat → Memory → Bool
  | _, [] => true
  | lo, (a, v) :: m => decide (lo ≤ a) && decide (a < config.memSize) && decide (v ≠ unlistedByte) && Memory.wfFrom (a + 1) m

/-- The canonical form of memory. -/
def Memory.wf (m : Memory) : Bool := Memory.wfFrom 0 m

/-- Memory becomes `m`. -/
def State.setMem (s : State) (m : Memory) : State := { s with mem := m }

/-- M[a], as the host or a later access sees it. -/
def State.byteAt (s : State) (a : Nat) : Byte := Memory.lookup s.mem a

/-- M[a] with `b` written there, no bounds test: only the operations below that test, or the loader, use it. -/
def State.pokeByte (s : State) (a : Nat) (b : Byte) : State := s.setMem (Memory.store s.mem a b)

/-! ### Effects that can end part-way -/

/-- How far an instruction has come: `done s`, every effect so far is in `s`; `raised f s`, the fault `f` was raised with the
effects in `s` already made (they stay, R40). -/
inductive Effect where
  | done (s : State)
  | raised (f : EngineFault) (s : State)
  deriving DecidableEq, Repr

/-- The next effect of the same instruction; after a raise nothing more happens (R40). -/
def Effect.andThen (e : Effect) (k : State → Effect) : Effect :=
  match e with
  | .done s => k s
  | .raised f s => .raised f s

/-- `raise f` (R10, R92, R93): the step ends with the status `Faulted(f)`; PC keeps pc0, everything written before stays. This
is all there is of taking an exception: no register saved, no vector, no mode (R96). -/
def raise (f : EngineFault) (s : State) : Outcome := .next (s.setStatus (.faulted f))

/-- The end of an instruction: `k` on the state of its effects, or the fault it raised. -/
def Effect.finish (e : Effect) (k : State → State) : Outcome :=
  match e with
  | .done s => .next (k s)
  | .raised f s => raise f s

/-! ### Byte accesses (spec/20_memory.md R29) -/

/-- `MemoryOutOfRange` for an access at `a` by the instruction at PC: PC holds pc0 until the step's last write (R17). -/
def outOfRange (a : Nat) (k : Access) (s : State) : EngineFault := .memoryOutOfRange a k s.pc

/-- `MemRead(a, 1)`: the byte, or the fault when `a >= MEM_SIZE`. -/
def readByte (a : Nat) (k : Access) (s : State) : Except EngineFault Byte :=
  if a < config.memSize then .ok (s.byteAt a) else .error (outOfRange a k s)

/-- `MemWrite(a, 1, b)`: the byte written, or the fault when `a >= MEM_SIZE`. -/
def writeByte (a : Nat) (b : Byte) (s : State) : Effect :=
  if a < config.memSize then .done (s.pokeByte a b) else .raised (outOfRange a .write s) s

/-- A read followed by the effect `k` of the byte read. -/
def withByte (a : Nat) (s : State) (k : Byte → Effect) : Effect :=
  match readByte a .read s with
  | .ok b => k b
  | .error f => .raised f s

/-- The bytes `bs` written at `a`, `a + 1`, ..., in that order: CLS, CALL and the store block (R36). -/
def storeBytes : Nat → List Byte → State → Effect
  | _, [], s => .done s
  | a, b :: bs, s => (writeByte a b s).andThen (storeBytes (a + 1) bs)

/-- The registers `rs` loaded from `a`, `a + 1`, ..., in that order: the load block (R36). -/
def loadRegs : Nat → List RegIdx → State → Effect
  | _, [], s => .done s
  | a, r :: rs, s => withByte a s fun b => loadRegs (a + 1) rs (s.setReg r b)

/-- The big-endian word at `a`, its high byte read first (R34, R36). -/
def readWord (a : Nat) (k : Access) (s : State) : Except EngineFault Word :=
  match readByte a k s with
  | .error f => .error f
  | .ok hi =>
    match readByte (a + 1) k s with
    | .error f => .error f
    | .ok lo => .ok (wordOfBytes hi lo)

/-! ### The generic end of an instruction (spec/40_control_flow.md R60) -/

/-- `PC <- pc0 +_16 adv`. -/
def State.advance (adv : Word) (s : State) : State := s.setPc (s.pc + adv)

/-- An instruction that is no jump form and raises nothing ends by advancing PC by 2. -/
def complete (s : State) : Outcome := .next (s.advance 2)

end Sys2Proof.Machine
end

