-- ==== Sys2Proof/Machine/Operands.lean ====
section
/-! DEFINITION. The operand forms: zero extension of immediates (spec/30_encoding.md R48) and every effective address of the
instruction set, computed as a natural number without wrapping or masking (spec/20_memory.md R31, spec/42_address_block.md
R84), with the place of a pixel in memory (R42). -/

namespace Sys2Proof.Machine

/-- `zext_16(nnn)` (R48). -/
def zextAddr (nnn : Addr12) : Word := nnn.setWidth 16

/-- `zext_16(v)` of a byte (R81). -/
def zextByte (b : Byte) : Word := b.setWidth 16

/-- `I + k`: the block transfers' and the sprite rows' address (R31). -/
def State.indexed (s : State) (k : Nat) : Nat := s.i.toNat + k

/-- `SP`: where the high byte of the last pushed return address is (R18). -/
def State.stackTop (s : State) : Nat := s.sp.toNat

/-- `SP - 2`: where CALL writes the high byte; used after the overflow check, so the difference is not negative. -/
def State.pushAddr (s : State) : Nat := s.sp.toNat - 2

/-- The registers V[0]..V[x] in order: the block of a transfer (R82, R83). -/
def blockRegs (x : RegIdx) : List RegIdx := (List.finRange 16).take (x.val + 1)

/-- The values of V[0]..V[x] in order. -/
def State.blockValues (s : State) (x : RegIdx) : List Byte := (blockRegs x).map s.reg

/-- `fb_byte(px, py)` (R42). -/
def fbByte (px py : Nat) : Nat := config.fbBase + (py * config.screenW + px) / 8

/-- `fb_mask(px)`: the leftmost pixel of a byte is bit 7 (R42, decision D6). -/
def fbMask (px : Nat) : Byte := 0x80#8 >>> (px % 8)

/-- Pixel (px, py) is on (R42; spec/44_display.md R88). -/
def State.pixelOn (s : State) (px py : Nat) : Bool := s.byteAt (fbByte px py) &&& fbMask px != 0#8

/-- `sprite[7 - col]`: the most significant bit first, mapped to increasing x (R90). -/
def spriteBit (sprite : Byte) (col : Nat) : Bool := sprite.getLsbD (7 - col)

end Sys2Proof.Machine
end

