-- ==== Sys2Proof/Machine/AddressBlock.lean ====
section
/-! DEFINITION. The address register and the block transfers (spec/42_address_block.md R80 to R83). -/

namespace Sys2Proof.Machine

/-- `I <- I +_16 (x + 1)` when BLOCK_ADVANCE_I (true for this hardware, decision D21), then the generic advance. -/
def advanceBlock (x : RegIdx) (s : State) : State :=
  (if config.blockAdvanceI then s.setI (s.i + BitVec.ofNat 16 (x.val + 1)) else s).advance 2

/-- `LD I, nnn` (R80). -/
def execLdI (nnn : Addr12) (s : State) : Outcome := complete (s.setI (zextAddr nnn))

/-- `ADD I, Vx` (R81): 16-bit wraparound, no flag. -/
def execAddI (x : RegIdx) (s : State) : Outcome := complete (s.setI (s.i + zextByte (s.reg x)))

/-- `LD [I], Vx` (R82). -/
def execStoreBlock (x : RegIdx) (s : State) : Outcome :=
  (storeBytes (s.indexed 0) (s.blockValues x) s).finish (advanceBlock x)

/-- `LD Vx, [I]` (R83). -/
def execLoadBlock (x : RegIdx) (s : State) : Outcome :=
  (loadRegs (s.indexed 0) (blockRegs x) s).finish (advanceBlock x)

end Sys2Proof.Machine
end

