-- ==== Sys2Proof/Machine/Flags.lean ====
section
/-! DEFINITION. The flag computations: what the side channel VF receives (spec/10_state.md R14; spec/41_alu.md R74 to R79),
always exactly 0 or 1. The collision flag of DRW is in Sys2Proof/Machine/Display.lean. -/

namespace Sys2Proof.Machine

/-- A flag value (R79). -/
def flag (p : Bool) : Byte := if p then 1#8 else 0#8

/-- Carry out of `a + b`: 1 iff the sum reaches 256 (R74). -/
def carryFlag (a b : Byte) : Byte := flag (decide (256 ≤ a.toNat + b.toNat))

/-- Not borrow of `a - b`: 1 iff `a >= b` (R75, R77). -/
def notBorrowFlag (a b : Byte) : Byte := flag (decide (b.toNat ≤ a.toNat))

/-- The bit a right shift by one puts out: bit 0 (R76). -/
def shiftOutRight (a : Byte) : Byte := flag (a.getLsbD 0)

/-- The bit a left shift by one puts out: bit 7 (R78). -/
def shiftOutLeft (a : Byte) : Byte := flag (a.getLsbD 7)

/-- The result into V[x], then the flag into VF: with x = 15 the flag stays (decision D10; assumption entry 8). -/
def State.setRegThenFlag (s : State) (x : RegIdx) (result f : Byte) : State := (s.setReg x result).setReg vf f

end Sys2Proof.Machine
end

