-- ==== Sys2Proof/Machine/Alu.lean ====
section
/-! DEFINITION. Register loads and the arithmetic-logic unit (spec/41_alu.md R68 to R78). No instruction here accesses
memory or raises; each ends with the generic advance of PC. Operands are read before any register is written (decision D11;
assumption entry 8). -/

namespace Sys2Proof.Machine

/-- `V[x] <- r`, no flag, and the generic advance: the common end of the flagless forms. -/
def writeReg (x : RegIdx) (r : Byte) (s : State) : Outcome := complete (s.setReg x r)

/-- `V[x] <- r`, then `V[15] <- f`, and the generic advance: the common end of the flag-writing forms. -/
def writeRegFlag (x : RegIdx) (r f : Byte) (s : State) : Outcome := complete (s.setRegThenFlag x r f)

/-- `LD Vx, nn` (R68). -/
def execLdImm (x : RegIdx) (nn : Byte) (s : State) : Outcome := writeReg x nn s

/-- `ADD Vx, nn` (R69): wrapping, no flag. -/
def execAddImm (x : RegIdx) (nn : Byte) (s : State) : Outcome := writeReg x (s.reg x + nn) s

/-- `LD Vx, Vy` (R70). -/
def execLdReg (x y : RegIdx) (s : State) : Outcome := writeReg x (s.reg y) s

/-- `OR Vx, Vy` (R71; VF is not written, decision D13). -/
def execOrReg (x y : RegIdx) (s : State) : Outcome := writeReg x (s.reg x ||| s.reg y) s

/-- `AND Vx, Vy` (R72; VF is not written, decision D13). -/
def execAndReg (x y : RegIdx) (s : State) : Outcome := writeReg x (s.reg x &&& s.reg y) s

/-- `XOR Vx, Vy` (R73; VF is not written, decision D13). -/
def execXorReg (x y : RegIdx) (s : State) : Outcome := writeReg x (s.reg x ^^^ s.reg y) s

/-- `ADD Vx, Vy` (R74). -/
def execAddReg (x y : RegIdx) (s : State) : Outcome :=
  writeRegFlag x (s.reg x + s.reg y) (carryFlag (s.reg x) (s.reg y)) s

/-- `SUB Vx, Vy` (R75). -/
def execSubReg (x y : RegIdx) (s : State) : Outcome :=
  writeRegFlag x (s.reg x - s.reg y) (notBorrowFlag (s.reg x) (s.reg y)) s

/-- `SHR Vx` (R76): V[x] is shifted, y is ignored (decision D12; assumption entry 9). -/
def execShr (x _y : RegIdx) (s : State) : Outcome := writeRegFlag x (s.reg x >>> 1) (shiftOutRight (s.reg x)) s

/-- `SUBN Vx, Vy` (R77). -/
def execSubnReg (x y : RegIdx) (s : State) : Outcome :=
  writeRegFlag x (s.reg y - s.reg x) (notBorrowFlag (s.reg y) (s.reg x)) s

/-- `SHL Vx` (R78): V[x] is shifted, y is ignored (decision D12; assumption entry 9). -/
def execShl (x _y : RegIdx) (s : State) : Outcome := writeRegFlag x (s.reg x <<< 1) (shiftOutLeft (s.reg x)) s

end Sys2Proof.Machine
end

