-- ==== Sys2Proof/Machine/ControlFlow.lean ====
section
/-! DEFINITION. Control flow (spec/40_control_flow.md R61 to R66): RET, JP, CALL, which set PC themselves, and the three
skips, which receive the generic advance of 2 or 4 (R60). -/

namespace Sys2Proof.Machine

/-- The end of a skip: `PC <- pc0 +_16 adv`, adv = 4 when the skip is taken, else 2 (R60). -/
def skipIf (taken : Bool) (s : State) : Outcome := .next (s.advance (if taken then 4 else 2))

/-- `RET` (R62). The popped address is a full 16-bit value (decision D32). -/
def execRet (s : State) : Outcome :=
  if s.sp.toNat + 2 > config.stackBase then raise (.stackUnderflow s.sp s.pc) s
  else
    match readWord s.stackTop .read s with
    | .error f => raise f s
    | .ok target => .next ((s.setPc target).setSp (s.sp + 2))

/-- `JP nnn` (R61): a jump to its own address halts, leaving everything else as it is (decision D18). -/
def execJp (nnn : Addr12) (s : State) : Outcome :=
  if zextAddr nnn = s.pc then .next (s.setStatus .halted) else .next (s.setPc (zextAddr nnn))

/-- `CALL nnn` (R63): the return address pc0 + 2 goes to SP - 2 (high byte) and SP - 1 (low byte). -/
def execCall (nnn : Addr12) (s : State) : Outcome :=
  if s.sp.toNat < config.stackLimit + 2 then raise (.stackOverflow s.sp s.pc) s
  else
    (storeBytes s.pushAddr [highByte (s.pc + 2), lowByte (s.pc + 2)] s).finish fun t =>
      (t.setSp (s.sp - 2)).setPc (zextAddr nnn)

/-- `SE Vx, nn` (R64). -/
def execSeImm (x : RegIdx) (nn : Byte) (s : State) : Outcome := skipIf (s.reg x == nn) s

/-- `SNE Vx, nn` (R65). -/
def execSneImm (x : RegIdx) (nn : Byte) (s : State) : Outcome := skipIf (s.reg x != nn) s

/-- `SE Vx, Vy` (R66). -/
def execSeReg (x y : RegIdx) (s : State) : Outcome := skipIf (s.reg x == s.reg y) s

end Sys2Proof.Machine
end

