-- ==== Sys2Proof/Machine/Display.lean ====
section
/-! DEFINITION. The display instructions CLS and DRW (spec/44_display.md R89, R90). The state of record is the framebuffer in
memory; the render port only receives calls (R88). -/

namespace Sys2Proof.Machine

/-- `CLS` (R89): the framebuffer bytes become 0, then `clear()` and `present()`. -/
def execCls (s : State) : Outcome :=
  (storeBytes config.fbBase (List.replicate config.fbSize 0#8) s).finish fun t =>
    ((t.emit .clear).emit .present).advance 2

/-- One set sprite bit on pixel (px, py) (R90, innermost lines): collision into VF, the bit toggled, the call emitted. -/
def drawPixel (px py : Nat) (s : State) : Effect :=
  withByte (fbByte px py) s fun old =>
    let s := if old &&& fbMask px != 0#8 then s.setReg vf 1#8 else s
    (writeByte (fbByte px py) (old ^^^ fbMask px) s).andThen fun s =>
      .done (s.emit (if (old ^^^ fbMask px) &&& fbMask px != 0#8 then .drawPx px py else .clearPx px py))

/-- The columns `cols` of one row (R90): the row ends at the first column at or past the right edge. -/
def drawCols (sprite : Byte) (vx py : Nat) : List Nat → State → Effect
  | [], s => .done s
  | col :: cols, s =>
    if config.screenW ≤ vx + col then .done s
    else if spriteBit sprite col then (drawPixel (vx + col) py s).andThen (drawCols sprite vx py cols)
    else drawCols sprite vx py cols s

/-- The rows `rows` of a sprite whose bytes start at `base` (R90): the row's byte is read before the test of y (decision D9);
the draw ends at the first row at or past the bottom; VF is cleared at the first processed row (decision D8). -/
def drawRows (base vx vy : Nat) : List Nat → Bool → State → Effect
  | [], _, s => .done s
  | row :: rows, first, s =>
    withByte (base + row) s fun sprite =>
      if config.screenH ≤ vy + row then .done s
      else
        (drawCols sprite vx (vy + row) (List.range 8) (if first then s.setReg vf 0#8 else s)).andThen
          (drawRows base vx vy rows false)

/-- `DRW Vx, Vy, n` (R90): the coordinates are read once and never reduced (decisions D7, D11); one `present()` after all
rows (decision D26). -/
def execDrw (x y : RegIdx) (n : Nat) (s : State) : Outcome :=
  (drawRows (s.indexed 0) (s.reg x).toNat (s.reg y).toNat (List.range n) true s).finish fun t =>
    (t.emit .present).advance 2

end Sys2Proof.Machine
end

