-- ==== Sys2Proof/Machine/Random.lean ====
section
/-! DEFINITION. The pseudo-random generator and RND (spec/43_random.md R85, R86). -/

namespace Sys2Proof.Machine

/-- One step of the generator (R85): left shifts discard bits past bit 63, the right shift is logical. -/
def xorshift64 (s : DWord) : DWord :=
  let t := s ^^^ (s <<< 13)
  let t := t ^^^ (t >>> 7)
  t ^^^ (t <<< 17)

/-- `RND Vx, nn` (R86): one generator step, and the low byte of the new state AND nn into V[x]. -/
def execRnd (x : RegIdx) (nn : Byte) (s : State) : Outcome :=
  complete ((s.setRng (xorshift64 s.rng)).setReg x ((xorshift64 s.rng).setWidth 8 &&& nn))

end Sys2Proof.Machine
end

