-- ==== Sys2Proof/Machine/Fetch.lean ====
section
/-! DEFINITION. The fetch (spec/40_control_flow.md R58). -/

namespace Sys2Proof.Machine

/-- The two bytes at PC and PC + 1, each read able to fault on its own, PC + 1 a natural number (R58, decision D23). -/
def fetch (s : State) : Except EngineFault Word := readWord s.pc.toNat .fetch s

/-- The word `w` stored big-endian where the next fetch reads it, on whatever of the two bytes exists. -/
def storeAtFetch (w : Word) (s : State) : State :=
  if s.pc.toNat + 1 < config.memSize then (s.pokeByte s.pc.toNat (highByte w)).pokeByte (s.pc.toNat + 1) (lowByte w) else s

end Sys2Proof.Machine
end

