-- ==== Sys2Proof/Machine/Step.lean ====
section
/-! DEFINITION. One step (spec/40_control_flow.md R57, R58, R59). -/

namespace Sys2Proof.Machine

/-- The step in full (R59): only while Running (R57); fetch, decode, execute. A word that selects no row raises
`UnimplementedInstruction(w, pc0)` and PC stays pc0. -/
def step (s : State) : Host.Outcome State Fault Refusal :=
  match s.status with
  | .running =>
    match fetch s with
    | .error f => raise f s
    | .ok w =>
      match decodeWord w with
      | .error _ => raise (.unimplementedInstruction w s.pc) s
      | .ok i => exec i s
  | st => .fault (.notRunning st)

/-- `s` with the instruction of an opcode-table row placed where the next step of a Running engine fetches: at PC and PC + 1
(entry 4). It stands for a load of that program word at PC. -/
def State.withFetchWord (s : State) (nbits w : Nat) : State := storeAtFetch (tableWord nbits w) s

end Sys2Proof.Machine
end

