-- ==== Sys2Proof/Machine/Boot.lean ====
section
/-! DEFINITION. Program load and boot (spec/70_reset_and_hazards.md R104, R105): how a program comes to run (assumption
entry 4). -/

namespace Sys2Proof.Machine

/-- The bytes `bs` copied to `a`, `a + 1`, ... -/
def copyBytes : Nat → List Byte → State → State
  | _, [], s => s
  | a, b :: bs, s => copyBytes (a + 1) bs (s.pokeByte a b)

/-- `load(P)` (R105): the program's bytes into program space from PROG_BASE and its length into prog_len; a program that is
too long is a LoadFailure and no engine is produced (decision D25). -/
def load (program : List Byte) (s : State) : Outcome :=
  if program.length > config.memSize - config.progBase then .refused (.loadFailure program.length)
  else .next ((copyBytes config.progBase program s).setProgLen program.length)

/-- Construction with a seed, then the load (R104, R105): the loaded state a run starts from (R107). -/
def boot (seed : DWord) (program : List Byte) : Outcome := load program (State.construct seed)

end Sys2Proof.Machine
end

