-- ==== Sys2Proof/Safety.lean ====
section
/-! DEFINITION. The terms the claims use: what each instruction may write (the tables of spec/10_state.md R15, R21 and
spec/20_memory.md R36), what a legal state is (R18, R41, R93, R100), and what a safe run is (spec/70_reset_and_hazards.md
R107). -/

namespace Sys2Proof

open Sys2Proof.Machine

/-! ### What an instruction may write -/

/-- The general registers an instruction may write: the column "writes" of the table of R15. -/
def Instr.writesReg : Instr → RegIdx → Bool
  | .ldImm x _, r | .addImm x _, r | .ldReg x _, r | .orReg x _, r | .andReg x _, r | .xorReg x _, r | .rnd x _, r => r == x
  | .addReg x _, r | .subReg x _, r | .subnReg x _, r | .shr x _, r | .shl x _, r => r == x || r == vf
  | .drw _ _ _, r => r == vf
  | .loadBlock x, r => decide (r ≤ x)
  | .cls, _ | .ret, _ | .jp _, _ | .call _, _ | .seImm _ _, _ | .sneImm _ _, _ | .seReg _ _, _ | .ldI _, _ | .addI _, _
  | .storeBlock _, _ => false

/-- The instructions that write I (R16, R21). -/
def Instr.writesI : Instr → Bool
  | .ldI _ | .addI _ | .storeBlock _ | .loadBlock _ => true
  | .cls | .ret | .jp _ | .call _ | .seImm _ _ | .sneImm _ _ | .seReg _ _ | .ldImm _ _ | .addImm _ _ | .ldReg _ _
  | .orReg _ _ | .andReg _ _ | .xorReg _ _ | .addReg _ _ | .subReg _ _ | .shr _ _ | .subnReg _ _ | .shl _ _ | .rnd _ _
  | .drw _ _ _ => false

/-- The instructions that write SP (R18, R21). -/
def Instr.writesSp : Instr → Bool
  | .call _ | .ret => true
  | .cls | .jp _ | .seImm _ _ | .sneImm _ _ | .seReg _ _ | .ldImm _ _ | .addImm _ _ | .ldReg _ _ | .orReg _ _ | .andReg _ _
  | .xorReg _ _ | .addReg _ _ | .subReg _ _ | .shr _ _ | .subnReg _ _ | .shl _ _ | .ldI _ | .rnd _ _ | .drw _ _ _ | .addI _
  | .storeBlock _ | .loadBlock _ => false

/-- The instruction that writes RNG (R19, R21). -/
def Instr.writesRng : Instr → Bool
  | .rnd _ _ => true
  | .cls | .ret | .jp _ | .call _ | .seImm _ _ | .sneImm _ _ | .seReg _ _ | .ldImm _ _ | .addImm _ _ | .ldReg _ _
  | .orReg _ _ | .andReg _ _ | .xorReg _ _ | .addReg _ _ | .subReg _ _ | .shr _ _ | .subnReg _ _ | .shl _ _ | .ldI _
  | .drw _ _ _ | .addI _ | .storeBlock _ | .loadBlock _ => false

/-- The instructions that call the render port (R41). -/
def Instr.rendersCalls : Instr → Bool
  | .cls | .drw _ _ _ => true
  | .ret | .jp _ | .call _ | .seImm _ _ | .sneImm _ _ | .seReg _ _ | .ldImm _ _ | .addImm _ _ | .ldReg _ _ | .orReg _ _
  | .andReg _ _ | .xorReg _ _ | .addReg _ _ | .subReg _ _ | .shr _ _ | .subnReg _ _ | .shl _ _ | .ldI _ | .rnd _ _ | .addI _
  | .storeBlock _ | .loadBlock _ => false

/-- The framebuffer bytes (R30). -/
def InFramebuffer (a : Nat) : Prop := config.fbBase ≤ a ∧ a < config.fbBase + config.fbSize

/-- Pixel (px, py) lies on the screen (R41). -/
def OnScreen (px py : Nat) : Prop := px < config.screenW ∧ py < config.screenH

/-- A draw of `n` rows at (vx, vy) covers the on-screen pixel (px, py) (R90: clipped, never wrapped). -/
def DrawCovers (vx vy n px py : Nat) : Prop := OnScreen px py ∧ vx ≤ px ∧ px < vx + 8 ∧ vy ≤ py ∧ py < vy + n

/-- The addresses an instruction may store to from state `s`: the writes of the table of R36, through the address functions
the meanings use. -/
def Instr.storesTo : Instr → State → Nat → Prop
  | .cls, _, a => InFramebuffer a
  | .call _, s, a => a = s.pushAddr ∨ a = s.pushAddr + 1
  | .drw x y n, s, a => ∃ px py, DrawCovers (s.reg x).toNat (s.reg y).toNat n px py ∧ a = fbByte px py
  | .storeBlock x, s, a => ∃ r : RegIdx, r ≤ x ∧ a = s.indexed r.val
  | .ret, _, _ | .jp _, _, _ | .seImm _ _, _, _ | .sneImm _ _, _, _ | .seReg _ _, _, _ | .ldImm _ _, _, _ | .addImm _ _, _, _
  | .ldReg _ _, _, _ | .orReg _ _, _, _ | .andReg _ _, _, _ | .xorReg _ _, _, _ | .addReg _ _, _, _ | .subReg _ _, _, _
  | .shr _ _, _, _ | .subnReg _ _, _, _ | .shl _ _, _, _ | .ldI _, _, _ | .rnd _ _, _, _ | .addI _, _, _
  | .loadBlock _, _, _ => False

/-- A draw of `n` rows from `s` at row coordinate `vy` reads row `r`: the first row always, a later one while the row before it
was on the screen (R90, decision D9). -/
def ReadsRow (vy n r : Nat) : Prop := r < n ∧ (r = 0 ∨ vy + r ≤ config.screenH)

/-- Every sprite byte the draw reads is in memory: the condition under which DRW raises nothing (R90, Exceptions). -/
def SpriteReadable (s : State) (y : RegIdx) (n : Nat) : Prop :=
  ∀ r, ReadsRow (s.reg y).toNat n r → s.indexed r < config.memSize

/-! ### What stays -/

/-- Every general register that `w` does not name is unchanged. -/
def KeepsRegs (w : RegIdx → Prop) (s t : State) : Prop := ∀ r, ¬ w r → t.reg r = s.reg r

/-- Every byte of memory at an address that `w` does not name reads as before. -/
def KeepsBytes (w : Nat → Prop) (s t : State) : Prop := ∀ a, ¬ w a → t.byteAt a = s.byteAt a

/-- I, SP, RNG and prog_len are unchanged. -/
def KeepsSpecials (s t : State) : Prop := t.i = s.i ∧ t.sp = s.sp ∧ t.rng = s.rng ∧ t.progLen = s.progLen

/-- The outputs, status and render calls, are unchanged. -/
def KeepsOutputs (s t : State) : Prop := t.status = s.status ∧ t.render = s.render

/-- Only the general registers that `w` names and PC may differ. -/
def ChangesOnlyRegs (w : RegIdx → Prop) (s t : State) : Prop :=
  KeepsRegs w s t ∧ KeepsBytes (fun _ => False) s t ∧ KeepsSpecials s t ∧ KeepsOutputs s t

/-- PC has advanced by 2, modulo 2^16 (R60). -/
def Advanced (s t : State) : Prop := t.pc.toNat = (s.pc.toNat + 2) % 2 ^ 16

/-! ### Legal states and safe runs -/

/-- The address of the instruction a fault was raised by: every info records it (R92). -/
def faultPc (f : EngineFault) : Word :=
  match f with
  | .unimplementedInstruction _ p | .memoryOutOfRange _ _ p | .stackOverflow _ p | .stackUnderflow _ p => p

/-- The code of a fault, the spec's own label (R92, decision D19). -/
def faultCode (f : EngineFault) : Nat :=
  match f with
  | .unimplementedInstruction _ _ => 1
  | .memoryOutOfRange _ _ _ => 2
  | .stackOverflow _ _ => 3
  | .stackUnderflow _ _ => 4

/-- A render call's coordinates are on the screen (R41). -/
def CallOnScreen (c : RenderCall) : Prop :=
  match c with
  | .drawPx px py | .clearPx px py => OnScreen px py
  | .clear | .present => True

/-- SP lies between STACK_LIMIT and STACK_BASE at an even distance from STACK_BASE (R18). -/
def StackLegal (s : State) : Prop :=
  config.stackLimit ≤ s.sp.toNat ∧ s.sp.toNat ≤ config.stackBase ∧ (config.stackBase - s.sp.toNat) % 2 = 0

/-- The invariant of the machine, kept by every step. -/
structure Inv (s : State) : Prop where
  /-- Memory is in its canonical form and inside the address space (R28, R29). -/
  memory : Memory.wf s.mem = true
  /-- The stack pointer's rule (R18). -/
  stack : StackLegal s
  /-- Every render call is on the screen (R41). -/
  calls : ∀ c ∈ s.render, CallOnScreen c
  /-- The loaded program fits the program space (R105). -/
  program : s.progLen ≤ config.memSize - config.progBase
  /-- A halted engine stands at a jump to its own address (R61, R100). -/
  halt : s.status = .halted → ∃ nnn, fetch s = .ok (encode (.jp nnn)) ∧ zextAddr nnn = s.pc
  /-- A faulted engine stands at the instruction that its info names (R93). -/
  fault : ∀ f, s.status = .faulted f → faultPc f = s.pc

/-- `t` is reached from `s` by steps (R107). -/
inductive Reaches : State → State → Prop where
  | refl (s : State) : Reaches s s
  | step (s t u : State) (h : Reaches s t) (hs : step t = .next u) : Reaches s u

/-- A loaded state: what boot leaves with some seed and some program that fits (R104, R105). -/
def Loaded (s : State) : Prop := ∃ seed program, boot seed program = .next s

/-- A state of a run that has not failed: Running or Halted (R107). -/
def NotFaulted (s : State) : Prop := s.status = .running ∨ s.status = .halted

/-- A safe run: no state it reaches is faulted (R107: a run ends in failure when the status becomes `Faulted`). -/
def SafeFrom (s : State) : Prop := ∀ t, Reaches s t → NotFaulted t

end Sys2Proof
end

