-- ==== Sys2Proof/Certificates/Slice0/Obligations.lean ====
section
/-! DEFINITION. The statements for the provers, from the numbered rules of spec/. Each docstring names the rules it
formalises, and where a clause rests on a decision of spec/92_eei_decisions.md (the spec's own choice, not its source's) it
names the decision and the assumption entry. Results are stated in natural-number arithmetic where the rules do; frames say
what stays, reading memory one byte at a time (`State.byteAt`). -/

open Sys2Proof Sys2Proof.Machine

/-! ### Encoding and decoding -/

/-- Words written out from the patterns of R50 decode to the instructions they stand for, and words of the unimplemented
space (R51) to none. Numeric values other than 1nnn, 6xnn and 7xnn are general knowledge by the spec's own account
(entry 12); 5121 and 01E0 are refused by decision D14 (entry 11). -/
def Obligations.SampleWordsDecode : Prop :=
  decodeWord 0x00E0#16 = .ok .cls ∧ decodeWord 0x00EE#16 = .ok .ret ∧ decodeWord 0x1200#16 = .ok (.jp 0x200#12) ∧
  decodeWord 0x6005#16 = .ok (.ldImm 0 0x05#8) ∧ decodeWord 0x7003#16 = .ok (.addImm 0 0x03#8) ∧
  decodeWord 0x8AB4#16 = .ok (.addReg 10 11) ∧ decodeWord 0xA123#16 = .ok (.ldI 0x123#12) ∧
  decodeWord 0xC50F#16 = .ok (.rnd 5 0x0F#8) ∧ decodeWord 0xD123#16 = .ok (.drw 1 2 3) ∧
  decodeWord 0xF255#16 = .ok (.storeBlock 2) ∧ decodeWord 0x5121#16 = .error (.unimplemented 0x5121#16) ∧
  decodeWord 0x01E0#16 = .error (.unimplemented 0x01E0#16)

/-- R44, R45: the word of two bytes, and its fields, as arithmetic on the word. -/
def Obligations.WordAndFields : Prop :=
  ∀ (b0 b1 : Byte) (w : Word),
    (wordOfBytes b0 b1).toNat = b0.toNat * 256 + b1.toNat ∧
    (fieldOp w).toNat = w.toNat / 4096 ∧ (fieldX w).val = w.toNat / 256 % 16 ∧ (fieldY w).val = w.toNat / 16 % 16 ∧
    (fieldN w).toNat = w.toNat % 16 ∧ (fieldNN w).toNat = w.toNat % 256 ∧ (fieldNNN w).toNat = w.toNat % 4096

/-- Decode of encode: no operand bit of any instruction is dropped (R47, R48, R50), with every operand at every value its
field admits. -/
def Obligations.DecodeOfEncode : Prop :=
  ∀ i : Instr, i.wellFormed = true →
    decodeWord (encode i) = .ok i ∧ ∀ rest, decode (encodeBytes i ++ rest) = .ok (i, rest)

/-- Encode of decode: every implemented word has one meaning, whose encoding is that word, and decoding gives only
well-formed instructions (R46, R50). -/
def Obligations.EncodeOfDecode : Prop :=
  ∀ (w : Word) (i : Instr), decodeWord w = .ok i → i.wellFormed = true ∧ encode i = w

/-- The dispatcher of R49 and the map of R50 agree on every word: a word that decodes selects exactly one row of the map, the
row of its instruction, and a word that does not decode selects none (R50, R51; strict selectors by decision D14,
entry 11). -/
def Obligations.DispatchAgreesWithOpcodeMap : Prop :=
  ∀ w : Word,
    (∀ i, decodeWord w = .ok i → opcodeMap.filter (fun r => r.selects w) = [i.row]) ∧
    (∀ e, decodeWord w = .error e → e = .unimplemented w ∧ opcodeMap.filter (fun r => r.selects w) = [])

/-! ### The step -/

/-- R58, R59: a step of a Running engine whose two bytes at PC are in memory and decode to an instruction is the execution of
that instruction at that state; the step adds nothing around it (PC is moved by the instruction itself, R60). -/
def Obligations.StepRunsTheDecodedInstruction : Prop :=
  ∀ (s : State) (i : Instr), s.status = .running → s.pc.toNat + 1 < config.memSize →
    decodeWord (wordOfBytes (s.byteAt s.pc.toNat) (s.byteAt (s.pc.toNat + 1))) = .ok i → step s = exec i s

/-- R51, R59, R93: a fetched word that selects no row of the map raises `UnimplementedInstruction(w, pc0)`; PC stays pc0 and
nothing else changes (what the map leaves out rests on D14, entry 11; the faulted next state is entry 1). -/
def Obligations.UnimplementedWordFaults : Prop :=
  ∀ (s : State) (w : Word), s.status = .running → s.pc.toNat + 1 < config.memSize →
    w = wordOfBytes (s.byteAt s.pc.toNat) (s.byteAt (s.pc.toNat + 1)) → (∀ r ∈ opcodeMap, r.selects w = false) →
    step s = .next { s with status := .faulted (.unimplementedInstruction w s.pc) }

/-- R58, R92, R93 (decisions D5, D23; entries 13, 25): the fetch faults at PC or, when only that byte is missing, at PC + 1;
nothing else changes. -/
def Obligations.FetchOutsideMemoryFaults : Prop :=
  ∀ s : State, s.status = .running →
    (config.memSize ≤ s.pc.toNat →
      step s = .next { s with status := .faulted (.memoryOutOfRange s.pc.toNat .fetch s.pc) }) ∧
    (s.pc.toNat + 1 = config.memSize →
      step s = .next { s with status := .faulted (.memoryOutOfRange config.memSize .fetch s.pc) })

/-- A halted or faulted engine has no step, and a step fetches, decodes and applies exactly one instruction (R57). That every
Running state has a next state, whatever memory holds, follows from R59 and R92 only as the model reads them: a raised fault
is a next state with the status Faulted (DEDUCED, entry 1). -/
def Obligations.StepExistsExactlyWhileRunning : Prop :=
  ∀ s : State, ((∃ t, step s = .next t) ↔ s.status = .running) ∧
    ∀ w i, s.status = .running → fetch s = .ok w → decodeWord w = .ok i → step s = exec i s

/-- The model's own (entry 4): `withFetchWord` changes the two bytes at PC and nothing else, and the next step runs the
instruction they hold. -/
def Obligations.FetchWordIsRun : Prop :=
  ∀ (s : State) (nbits w : Nat) (i : Instr), s.status = .running → s.pc.toNat + 1 < config.memSize →
    decodeTableWord nbits w = some i →
    step (s.withFetchWord nbits w) = exec i (s.withFetchWord nbits w) ∧
    s.withFetchWord nbits w = { s with mem := (s.withFetchWord nbits w).mem } ∧
    KeepsBytes (fun a => a = s.pc.toNat ∨ a = s.pc.toNat + 1) s (s.withFetchWord nbits w)

/-! ### Results: register loads and the arithmetic-logic unit -/

/-- R68, R69: the words 6xnn and 7xnn (both values are the source's own) load and add the immediate, wrapping at 8 bits; they
complete, and only V[x] and PC change, so that no flag is written unless x = 15. (PC wraps at its end by decision D15, which
this statement does not use; see `ProgramCounterChanges`.) -/
def Obligations.LoadAndAddImmediate : Prop :=
  ∀ (x : RegIdx) (nn : Byte) (s : State),
    (∀ w : Word, w.toNat = 0x6000 + x.val * 256 + nn.toNat → decodeWord w = .ok (.ldImm x nn)) ∧
    (∃ t, exec (.ldImm x nn) s = .next t ∧ t.reg x = nn ∧ ChangesOnlyRegs (fun r => r = x) s t ∧
      (s.pc.toNat + 2 < 2 ^ 16 → t.pc.toNat = s.pc.toNat + 2)) ∧
    (∀ w : Word, w.toNat = 0x7000 + x.val * 256 + nn.toNat → decodeWord w = .ok (.addImm x nn)) ∧
    (∃ t, exec (.addImm x nn) s = .next t ∧ (t.reg x).toNat = ((s.reg x).toNat + nn.toNat) % 256 ∧
      ChangesOnlyRegs (fun r => r = x) s t ∧ (s.pc.toNat + 2 < 2 ^ 16 → t.pc.toNat = s.pc.toNat + 2))

/-- R70, R71, R72, R73: assignment, and OR, AND and XOR bit by bit, complete; only V[x] and PC change. That VF is not written
by the three is decision D13 (entry 10). -/
def Obligations.AssignmentAndBitwiseOperations : Prop :=
  ∀ (x y : RegIdx) (s : State),
    (∃ t, exec (.ldReg x y) s = .next t ∧ t.reg x = s.reg y ∧ Advanced s t ∧ ChangesOnlyRegs (fun r => r = x) s t) ∧
    (∃ t, exec (.orReg x y) s = .next t ∧ (∀ k, (t.reg x).getLsbD k = ((s.reg x).getLsbD k || (s.reg y).getLsbD k)) ∧
      Advanced s t ∧ ChangesOnlyRegs (fun r => r = x) s t) ∧
    (∃ t, exec (.andReg x y) s = .next t ∧ (∀ k, (t.reg x).getLsbD k = ((s.reg x).getLsbD k && (s.reg y).getLsbD k)) ∧
      Advanced s t ∧ ChangesOnlyRegs (fun r => r = x) s t) ∧
    (∃ t, exec (.xorReg x y) s = .next t ∧ (∀ k, (t.reg x).getLsbD k = ((s.reg x).getLsbD k != (s.reg y).getLsbD k)) ∧
      Advanced s t ∧ ChangesOnlyRegs (fun r => r = x) s t)

/-- R74, R75, R77: sum and differences modulo 256 of the old operands into V[x]; carry, or not borrow, into VF; with x = 15
VF ends holding the flag (decision D10), and the operands are the old ones also when y = 15 (decision D11; entry 8). Only
V[x], VF and PC change. -/
def Obligations.AddAndSubtractWithFlag : Prop :=
  ∀ (x y : RegIdx) (s : State),
    (∃ t, exec (.addReg x y) s = .next t ∧
      (x ≠ 15 → (t.reg x).toNat = ((s.reg x).toNat + (s.reg y).toNat) % 256) ∧
      (t.reg 15).toNat = (if 256 ≤ (s.reg x).toNat + (s.reg y).toNat then 1 else 0) ∧
      Advanced s t ∧ ChangesOnlyRegs (fun r => r = x ∨ r = 15) s t) ∧
    (∃ t, exec (.subReg x y) s = .next t ∧
      (x ≠ 15 → ((t.reg x).toNat : Int) = ((s.reg x).toNat - (s.reg y).toNat : Int) % 256) ∧
      (t.reg 15).toNat = (if (s.reg x).toNat < (s.reg y).toNat then 0 else 1) ∧
      Advanced s t ∧ ChangesOnlyRegs (fun r => r = x ∨ r = 15) s t) ∧
    (∃ t, exec (.subnReg x y) s = .next t ∧
      (x ≠ 15 → ((t.reg x).toNat : Int) = ((s.reg y).toNat - (s.reg x).toNat : Int) % 256) ∧
      (t.reg 15).toNat = (if (s.reg y).toNat < (s.reg x).toNat then 0 else 1) ∧
      Advanced s t ∧ ChangesOnlyRegs (fun r => r = x ∨ r = 15) s t)

/-- R76, R78: shifts by one of V[x], the bit shifted out into VF. That V[x] is shifted and y ignored is decision D12
(entry 9), that VF holds the flag when x = 15 is decision D10 (entry 8). Only V[x], VF and PC change. -/
def Obligations.ShiftsWithFlag : Prop :=
  ∀ (x y : RegIdx) (s : State),
    (∃ t, exec (.shr x y) s = .next t ∧ (x ≠ 15 → (t.reg x).toNat = (s.reg x).toNat / 2) ∧
      (t.reg 15).toNat = (s.reg x).toNat % 2 ∧ Advanced s t ∧ ChangesOnlyRegs (fun r => r = x ∨ r = 15) s t) ∧
    (∃ t, exec (.shl x y) s = .next t ∧ (x ≠ 15 → (t.reg x).toNat = (s.reg x).toNat * 2 % 256) ∧
      (t.reg 15).toNat = (s.reg x).toNat / 128 ∧ Advanced s t ∧ ChangesOnlyRegs (fun r => r = x ∨ r = 15) s t)

/-! ### Results: control flow -/

/-- R64, R65, R66: the skips complete, advance PC by 4 when their condition holds and by 2 otherwise, modulo 2^16, and change
nothing else. -/
def Obligations.SkipsAdvanceByFourOrTwo : Prop :=
  ∀ (x y : RegIdx) (nn : Byte) (s : State),
    (∃ t, exec (.seImm x nn) s = .next t ∧
      t.pc.toNat = (s.pc.toNat + (if (s.reg x).toNat = nn.toNat then 4 else 2)) % 2 ^ 16 ∧
      ChangesOnlyRegs (fun _ => False) s t) ∧
    (∃ t, exec (.sneImm x nn) s = .next t ∧
      t.pc.toNat = (s.pc.toNat + (if (s.reg x).toNat = nn.toNat then 2 else 4)) % 2 ^ 16 ∧
      ChangesOnlyRegs (fun _ => False) s t) ∧
    (∃ t, exec (.seReg x y) s = .next t ∧
      t.pc.toNat = (s.pc.toNat + (if (s.reg x).toNat = (s.reg y).toNat then 4 else 2)) % 2 ^ 16 ∧
      ChangesOnlyRegs (fun _ => False) s t)

/-- R61: a jump completes at its target; a jump to its own address halts with PC where it is (decision D18, entry 22).
Nothing else changes. -/
def Obligations.JumpOrHalt : Prop :=
  ∀ (nnn : Addr12) (s : State), ∃ t, exec (.jp nnn) s = .next t ∧ t.pc.toNat = nnn.toNat ∧
    (s.pc.toNat = nnn.toNat → t.status = .halted) ∧ (s.pc.toNat ≠ nnn.toNat → t.status = s.status) ∧
    KeepsRegs (fun _ => False) s t ∧ KeepsBytes (fun _ => False) s t ∧ KeepsSpecials s t ∧ t.render = s.render

/-- R63 (decisions D4, D32; entries 14, 20): with a free slot, CALL pushes PC + 2 big-endian at SP - 2 and SP - 1, decrements
SP by 2 and jumps; nothing else changes. -/
def Obligations.CallPushesReturnAddress : Prop :=
  ∀ (nnn : Addr12) (s : State), config.stackLimit + 2 ≤ s.sp.toNat → s.sp.toNat ≤ config.memSize →
    ∃ t, exec (.call nnn) s = .next t ∧ t.pc.toNat = nnn.toNat ∧ t.sp.toNat = s.sp.toNat - 2 ∧
      (t.byteAt s.pushAddr).toNat = (s.pc.toNat + 2) % 2 ^ 16 / 256 ∧
      (t.byteAt (s.pushAddr + 1)).toNat = (s.pc.toNat + 2) % 256 ∧
      KeepsBytes (fun a => a = s.pushAddr ∨ a = s.pushAddr + 1) s t ∧ KeepsRegs (fun _ => False) s t ∧
      KeepsOutputs s t ∧ t.i = s.i ∧ t.rng = s.rng ∧ t.progLen = s.progLen

/-- R62 (decisions D4, D32; entries 14, 20): with an entry on the stack, RET pops a full 16-bit big-endian address into PC and
increments SP by 2; nothing else changes. -/
def Obligations.ReturnPopsAddress : Prop :=
  ∀ s : State, s.sp.toNat + 2 ≤ config.stackBase →
    ∃ t, exec .ret s = .next t ∧
      t.pc.toNat = (s.byteAt s.sp.toNat).toNat * 256 + (s.byteAt (s.sp.toNat + 1)).toNat ∧
      t.sp.toNat = s.sp.toNat + 2 ∧
      KeepsBytes (fun _ => False) s t ∧ KeepsRegs (fun _ => False) s t ∧
      KeepsOutputs s t ∧ t.i = s.i ∧ t.rng = s.rng ∧ t.progLen = s.progLen

/-- R62, R63, R92, R93: RET on an empty stack and CALL on a full one raise the stack faults, checked before any memory access;
nothing but the status changes. The source leaves both undefined; the faults are decision D4 (entry 14). -/
def Obligations.StackOverflowAndUnderflowFault : Prop :=
  ∀ (nnn : Addr12) (s : State),
    (s.sp.toNat < config.stackLimit + 2 →
      exec (.call nnn) s = .next { s with status := .faulted (.stackOverflow s.sp s.pc) }) ∧
    (config.stackBase < s.sp.toNat + 2 →
      exec .ret s = .next { s with status := .faulted (.stackUnderflow s.sp s.pc) })

/-- R67: CALL followed by RET restores PC to the call site + 2 and SP to its value before the call, for every callee that
leaves SP and the two pushed bytes unchanged. -/
def Obligations.CallThenReturn : Prop :=
  ∀ (nnn : Addr12) (s t u : State), config.stackLimit + 2 ≤ s.sp.toNat → s.sp.toNat ≤ config.stackBase →
    exec (.call nnn) s = .next t → u.sp = t.sp →
    u.byteAt s.pushAddr = t.byteAt s.pushAddr → u.byteAt (s.pushAddr + 1) = t.byteAt (s.pushAddr + 1) →
    ∃ w, exec .ret u = .next w ∧ w.pc = s.pc + 2 ∧ w.sp = s.sp

/-! ### Results: address register, block transfer, random -/

/-- R80, R81: LD I and ADD I complete; I wraps at 16 bits, no flag is written, and only I and PC change. -/
def Obligations.AddressRegisterResults : Prop :=
  ∀ (nnn : Addr12) (x : RegIdx) (s : State),
    (∃ t, exec (.ldI nnn) s = .next t ∧ t.i.toNat = nnn.toNat ∧ Advanced s t ∧ KeepsRegs (fun _ => False) s t ∧
      KeepsBytes (fun _ => False) s t ∧ KeepsOutputs s t ∧ t.sp = s.sp ∧ t.rng = s.rng ∧ t.progLen = s.progLen) ∧
    (∃ t, exec (.addI x) s = .next t ∧ t.i.toNat = (s.i.toNat + (s.reg x).toNat) % 2 ^ 16 ∧ Advanced s t ∧
      KeepsRegs (fun _ => False) s t ∧ KeepsBytes (fun _ => False) s t ∧ KeepsOutputs s t ∧ t.sp = s.sp ∧
      t.rng = s.rng ∧ t.progLen = s.progLen)

/-- R82: inside memory, the store block writes V[0]..V[x] at I.. in order, advances I by x + 1 modulo 2^16 (BLOCK_ADVANCE_I
is true for this hardware, decision D21, entry 19), and changes nothing else but PC. -/
def Obligations.StoreBlockResult : Prop :=
  ∀ (x : RegIdx) (s : State), s.indexed x.val < config.memSize →
    ∃ t, exec (.storeBlock x) s = .next t ∧ (∀ r : RegIdx, r ≤ x → t.byteAt (s.indexed r.val) = s.reg r) ∧
      t.i.toNat = (s.i.toNat + x.val + 1) % 2 ^ 16 ∧ Advanced s t ∧
      KeepsBytes (fun a => ∃ r : RegIdx, r ≤ x ∧ a = s.indexed r.val) s t ∧ KeepsRegs (fun _ => False) s t ∧
      KeepsOutputs s t ∧ t.sp = s.sp ∧ t.rng = s.rng ∧ t.progLen = s.progLen

/-- R83: inside memory, the load block reads V[0]..V[x] from I.., advances I by x + 1 modulo 2^16 (decision D21, entry 19),
and changes nothing else but PC. -/
def Obligations.LoadBlockResult : Prop :=
  ∀ (x : RegIdx) (s : State), s.indexed x.val < config.memSize →
    ∃ t, exec (.loadBlock x) s = .next t ∧ (∀ r : RegIdx, r ≤ x → t.reg r = s.byteAt (s.indexed r.val)) ∧
      t.i.toNat = (s.i.toNat + x.val + 1) % 2 ^ 16 ∧ Advanced s t ∧
      KeepsRegs (fun r => r ≤ x) s t ∧ KeepsBytes (fun _ => False) s t ∧
      KeepsOutputs s t ∧ t.sp = s.sp ∧ t.rng = s.rng ∧ t.progLen = s.progLen

/-- R40, R82, R83, R93 (decision D5; entry 13): a block transfer that reaches the end of memory raises `MemoryOutOfRange` at the
first address outside; the bytes stored and the registers loaded before it stay, I and PC are not advanced, and nothing else
changes. -/
def Obligations.BlockTransferPastTheEndFaults : Prop :=
  ∀ (x : RegIdx) (s : State), config.memSize ≤ s.indexed x.val →
    (∃ t, exec (.storeBlock x) s = .next t ∧
      t.status = .faulted (.memoryOutOfRange (max s.i.toNat config.memSize) .write s.pc) ∧
      (∀ r : RegIdx, s.indexed r.val < config.memSize → t.byteAt (s.indexed r.val) = s.reg r) ∧
      KeepsBytes (fun a => a < config.memSize ∧ ∃ r : RegIdx, a = s.indexed r.val) s t ∧
      KeepsRegs (fun _ => False) s t ∧ KeepsSpecials s t ∧ t.pc = s.pc ∧ t.render = s.render) ∧
    (∃ t, exec (.loadBlock x) s = .next t ∧
      t.status = .faulted (.memoryOutOfRange (max s.i.toNat config.memSize) .read s.pc) ∧
      (∀ r : RegIdx, s.indexed r.val < config.memSize → t.reg r = s.byteAt (s.indexed r.val)) ∧
      KeepsRegs (fun r => s.indexed r.val < config.memSize) s t ∧
      KeepsBytes (fun _ => False) s t ∧ KeepsSpecials s t ∧ t.pc = s.pc ∧ t.render = s.render)

/-- R84: a block store and a block load through the same I and the same registers round-trip every value and advance I by
the length in both directions, when nothing between them writes the bytes. -/
def Obligations.BlockStoreThenLoad : Prop :=
  ∀ (x : RegIdx) (s t u : State), s.indexed x.val < config.memSize → exec (.storeBlock x) s = .next t → u.i = s.i →
    (∀ r : RegIdx, r ≤ x → u.byteAt (s.indexed r.val) = t.byteAt (s.indexed r.val)) →
    ∃ w, exec (.loadBlock x) u = .next w ∧ (∀ r : RegIdx, r ≤ x → w.reg r = s.reg r) ∧ w.i = t.i ∧
      t.i.toNat = (s.i.toNat + x.val + 1) % 2 ^ 16

/-- R85, R86: RND completes, steps the generator exactly once and puts the low byte of its new state AND nn into V[x]; nothing
else changes but PC. -/
def Obligations.RandomByte : Prop :=
  ∀ (x : RegIdx) (nn : Byte) (s : State),
    ∃ t, exec (.rnd x nn) s = .next t ∧
      (∀ a b : DWord, a = s.rng ^^^ (s.rng <<< 13) → b = a ^^^ (a >>> 7) → t.rng = b ^^^ (b <<< 17)) ∧
      (t.reg x).toNat = (t.rng.toNat % 256) &&& nn.toNat ∧ Advanced s t ∧
      KeepsRegs (fun r => r = x) s t ∧ KeepsBytes (fun _ => False) s t ∧ KeepsOutputs s t ∧ t.i = s.i ∧ t.sp = s.sp ∧
      t.progLen = s.progLen

/-- R85: the generator is a bijection that fixes 0, hence a bijection on the nonzero values. -/
def Obligations.GeneratorIsABijection : Prop := Function.Bijective xorshift64 ∧ ∀ d, xorshift64 d = 0 ↔ d = 0

/-! ### Results: display -/

/-- R42, R88: pixel (px, py) is bit 7 - px mod 8 (leftmost pixel most significant, decision D6, entry 15) of byte
FB_BASE + py * 8 + px div 8; that byte lies in the framebuffer; no two on-screen pixels share a bit, and two pixels of one
byte differ in their mask. -/
def Obligations.PixelsHaveTheirOwnBits : Prop :=
  (∀ px py, OnScreen px py →
    fbByte px py = config.fbBase + py * 8 + px / 8 ∧ (fbMask px).toNat = 2 ^ (7 - px % 8) ∧ InFramebuffer (fbByte px py)) ∧
  (∀ px py qx qy, OnScreen px py → OnScreen qx qy → fbByte px py = fbByte qx qy → fbMask px = fbMask qx → px = qx ∧ py = qy) ∧
  (∀ (s : State) (px py : Nat), s.pixelOn px py = (s.byteAt (fbByte px py)).getLsbD (7 - px % 8))

/-- R89: CLS completes, zeroes the framebuffer bytes (their place is decision D3, entry 5), emits `clear()` and `present()`,
and changes no other byte, no register and no flag. -/
def Obligations.ClearScreen : Prop :=
  ∀ s : State, ∃ t, exec .cls s = .next t ∧ (∀ a, InFramebuffer a → t.byteAt a = 0) ∧ KeepsBytes InFramebuffer s t ∧
    t.render = s.render ++ [.clear, .present] ∧ Advanced s t ∧ KeepsRegs (fun _ => False) s t ∧ KeepsSpecials s t ∧
    t.status = s.status

/-- R90, R91: a draw that processes no row (no rows asked for, or a start row at or past the bottom) emits `present()` alone
and leaves VF and everything else but PC unchanged (decisions D7, D8, D9, D26; entries 16, 17, 18). -/
def Obligations.DrawOfNoRow : Prop :=
  ∀ (x y : RegIdx) (n : Nat) (s : State), SpriteReadable s y n → n = 0 ∨ config.screenH ≤ (s.reg y).toNat →
    ∃ t, exec (.drw x y n) s = .next t ∧ t.render = s.render ++ [.present] ∧ Advanced s t ∧
      KeepsRegs (fun _ => False) s t ∧ KeepsBytes (fun _ => False) s t ∧ KeepsSpecials s t ∧ t.status = s.status

/-- R90: DRW completes when every sprite byte it reads is in memory. PC advances by 2; one `present()` comes last; only VF, the
bytes of the covered pixels and the render output change (decision D9 says which bytes are read, entry 17). -/
def Obligations.DrawCompletes : Prop :=
  ∀ (x y : RegIdx) (n : Nat) (s : State), SpriteReadable s y n →
    ∃ t, exec (.drw x y n) s = .next t ∧ Advanced s t ∧ (∃ calls, t.render = s.render ++ calls ++ [.present]) ∧
      KeepsRegs (fun r => r = 15) s t ∧ KeepsBytes ((Instr.drw x y n).storesTo s) s t ∧ KeepsSpecials s t ∧
      t.status = s.status

/-- R90, one row at a time, for every sprite, also one that overlaps the framebuffer: the draw of n + 1 rows is the draw of n
rows and then, if row n is on the screen, the XOR of row n's byte AS THE n ROWS LEFT IT, with its render calls in order of
increasing x and its collisions in VF (decisions D6 to D9; entries 15 to 17). Together with `DrawOfNoRow` this gives the
result of every draw. -/
def Obligations.DrawOneMoreRow : Prop :=
  ∀ (x y : RegIdx) (n : Nat) (s : State) (vx vy : Nat), vx = (s.reg x).toNat → vy = (s.reg y).toNat →
    SpriteReadable s y (n + 1) →
    ∃ t u calls, exec (.drw x y n) s = .next t ∧ exec (.drw x y (n + 1)) s = .next u ∧
      t.render = s.render ++ calls ++ [.present] ∧
      (config.screenH ≤ vy + n → u = t) ∧
      (vy + n < config.screenH →
        ∀ hit : Nat → Bool, (∀ col, hit col =
            (decide (col < 8 ∧ vx + col < config.screenW) && (t.byteAt (s.indexed n)).getLsbD (7 - col))) →
        (∀ px py, OnScreen px py →
          u.pixelOn px py = (t.pixelOn px py != (decide (py = vy + n ∧ vx ≤ px) && hit (px - vx)))) ∧
        (u.reg 15 = 1 ∨ u.reg 15 = 0) ∧
        (u.reg 15 = 1 ↔ (0 < n ∧ t.reg 15 = 1) ∨ ∃ col, hit col = true ∧ t.pixelOn (vx + col) (vy + n) = true) ∧
        u.render = s.render ++ calls ++ ((List.range 8).filter hit).map (fun col =>
            if t.pixelOn (vx + col) (vy + n) then RenderCall.clearPx (vx + col) (vy + n)
            else RenderCall.drawPx (vx + col) (vy + n)) ++ [.present])

/-- R90: the picture after a draw that leaves the sprite bytes of its processed rows as they were (as it does, by
`MemoryFrame`, wherever they lie outside the bytes it draws to): every on-screen pixel is XORed with the sprite bit that covers
it, most significant bit leftmost, clipped at the right and bottom edges, never wrapped; VF tells whether a set bit met a set
pixel, and is unchanged if no row is processed (decisions D6 to D9; entries 15 to 17). -/
def Obligations.DrawXorsThePicture : Prop :=
  ∀ (x y : RegIdx) (n : Nat) (s : State) (vx vy : Nat), vx = (s.reg x).toNat → vy = (s.reg y).toNat →
    SpriteReadable s y n →
    ∃ t, exec (.drw x y n) s = .next t ∧
      ((∀ r, r < n → vy + r < config.screenH → t.byteAt (s.indexed r) = s.byteAt (s.indexed r)) →
        ∀ lit : Nat → Nat → Prop,
          (∀ px py, lit px py ↔
            DrawCovers vx vy n px py ∧ (s.byteAt (s.indexed (py - vy))).getLsbD (7 - (px - vx)) = true) →
          (∀ px py, OnScreen px py → (t.pixelOn px py = true ↔ (s.pixelOn px py = true ↔ ¬ lit px py))) ∧
          (n = 0 ∨ config.screenH ≤ vy → t.reg 15 = s.reg 15) ∧
          (0 < n → vy < config.screenH →
            (t.reg 15 = 1 ∨ t.reg 15 = 0) ∧ (t.reg 15 = 1 ↔ ∃ px py, lit px py ∧ s.pixelOn px py = true)))

/-- R40, R90, R93 (decisions D5, D9; entries 13, 17): a draw that reads a sprite byte outside memory, first at row r, raises
`MemoryOutOfRange` there: everything the draw of the r rows before it does stays, except that no `present()` is emitted and PC
is not advanced. -/
def Obligations.DrawPastTheEndFaults : Prop :=
  ∀ (x y : RegIdx) (n r : Nat) (s : State), ReadsRow (s.reg y).toNat n r → config.memSize ≤ s.indexed r →
    SpriteReadable s y r →
    ∃ t u calls, exec (.drw x y r) s = .next t ∧ exec (.drw x y n) s = .next u ∧
      t.render = s.render ++ calls ++ [.present] ∧
      u = { t with pc := s.pc, render := s.render ++ calls,
                   status := .faulted (.memoryOutOfRange (s.indexed r) .read s.pc) }

/-- XOR idempotence, which R91 derives from R90: a second draw with the same V[x], V[y], n and I over the memory the first
one left, the sprite bytes of the processed rows being as before the first draw (so that both draws read the same), restores
every byte of memory, and its VF is 1 exactly when the first draw turned a pixel on (if a row is processed). Decisions D6 to D9;
entries 15 to 17. -/
def Obligations.DrawTwiceRestores : Prop :=
  ∀ (x y : RegIdx) (n : Nat) (s t u : State), SpriteReadable s y n → exec (.drw x y n) s = .next t →
    (∀ r, r < n → (s.reg y).toNat + r < config.screenH → t.byteAt (s.indexed r) = s.byteAt (s.indexed r)) →
    u.mem = t.mem → u.i = s.i → u.reg x = s.reg x → u.reg y = s.reg y →
    ∃ w, exec (.drw x y n) u = .next w ∧ (∀ a, w.byteAt a = s.byteAt a) ∧
      (0 < n → (s.reg y).toNat < config.screenH →
        (w.reg 15 = 1 ∨ w.reg 15 = 0) ∧
        (w.reg 15 = 1 ↔ ∃ px py, OnScreen px py ∧ s.pixelOn px py = false ∧ t.pixelOn px py = true))

/-! ### The whole machine -/

/-- What each instruction may write among the general registers, on every path, a raise included: the table of R15 (VF of OR,
AND and XOR by decision D13, entry 10). -/
def Obligations.GeneralRegisterFrame : Prop :=
  ∀ (i : Instr) (s t : State), exec i s = .next t → KeepsRegs (fun r => i.writesReg r = true) s t

/-- What each instruction may store to, on every path, a raise included: the table of R36, every other byte of memory reads
as before. -/
def Obligations.MemoryFrame : Prop :=
  ∀ (i : Instr) (s t : State), exec i s = .next t → KeepsBytes (i.storesTo s) s t

/-- Who writes the special registers (R16, R18, R19, R21) and prog_len (R23: nobody), on every path. -/
def Obligations.SpecialRegisterFrame : Prop :=
  ∀ (i : Instr) (s t : State), exec i s = .next t →
    (i.writesI = false → t.i = s.i) ∧ (i.writesSp = false → t.sp = s.sp) ∧ (i.writesRng = false → t.rng = s.rng) ∧
    t.progLen = s.progLen

/-- R41: the render output only grows, only CLS and DRW make calls, and every pixel call is on the screen. -/
def Obligations.RenderOutputOnlyGrows : Prop :=
  ∀ (i : Instr) (s t : State), exec i s = .next t →
    ∃ calls, t.render = s.render ++ calls ∧ (i.rendersCalls = false → calls = []) ∧ ∀ c ∈ calls, CallOnScreen c

/-- R56, R60: the only ways PC changes. A Running engine that does not halt or fault goes on to PC + 2, for a skip PC + 2 or
PC + 4, for JP and CALL the 12-bit target, for RET the popped address; one that halts or faults keeps PC. -/
def Obligations.ProgramCounterChanges : Prop :=
  ∀ (i : Instr) (s t : State), s.status = .running → exec i s = .next t →
    (t.status ≠ .running ∧ t.pc = s.pc) ∨
    (t.status = .running ∧
      match i with
      | .jp nnn | .call nnn => t.pc.toNat = nnn.toNat
      | .ret => t.pc = wordOfBytes (s.byteAt s.sp.toNat) (s.byteAt (s.sp.toNat + 1))
      | .seImm _ _ | .sneImm _ _ | .seReg _ _ => t.pc = s.pc + 2 ∨ t.pc = s.pc + 4
      | _ => t.pc = s.pc + 2)

/-- One privilege mode, every instruction available in every state (R99), read as: every instruction answers a next state from
every state. That it does also where it faults (R92) is the model's reading of a fault as a next state (DEDUCED, entry 1). No
region boundary protects memory (R32, R99): every byte inside memory can be read and written in every state. -/
def Obligations.EveryInstructionIsAvailable : Prop :=
  (∀ (i : Instr) (s : State), ∃ t, exec i s = .next t) ∧
  ∀ (a : Nat) (b : Byte) (k : Access) (s : State), a < config.memSize →
    readByte a k s = .ok (s.byteAt a) ∧ ∃ t, writeByte a b s = .done t ∧ t.byteAt a = b

/-- R100: only a jump to its own address enters Halted, it changes nothing but the status, and nothing wakes a halted
engine. -/
def Obligations.SelfJumpHaltsForGood : Prop :=
  (∀ (nnn : Addr12) (s : State), s.pc.toNat = nnn.toNat → exec (.jp nnn) s = .next { s with status := .halted }) ∧
  (∀ s t : State, step s = .next t → t.status = .halted →
    ∃ nnn, fetch s = .ok (encode (.jp nnn)) ∧ s.pc.toNat = nnn.toNat ∧ t = { s with status := .halted }) ∧
  ∀ s t : State, s.status = .halted → Reaches s t → t = s

/-- R93: whatever faults, PC keeps the address of the faulting instruction, the info names it, and neither I, SP, RNG nor
prog_len has changed. -/
def Obligations.FaultKeepsProgramCounter : Prop :=
  ∀ (s t : State) (f : EngineFault), step s = .next t → t.status = .faulted f →
    t.pc = s.pc ∧ faultPc f = s.pc ∧ KeepsSpecials s t

/-- Which instruction raises which fault (R92, R94; decisions D4, D5; entries 13, 14). A Running engine's executed instruction
raises `StackOverflow` only from CALL, `StackUnderflow` only from RET, `MemoryOutOfRange` with a write only from the store
block, with a read only from DRW and the load block; it never raises `UnimplementedInstruction` or a fetch fault, which are the
step's own. One disjunct is the model's and not R92's, which lists no `MemoryOutOfRange` for CALL: with SP above STACK_BASE, in
a state no run reaches, CALL may raise it with a write (DEDUCED, entry 29). -/
def Obligations.WhichInstructionRaisesWhat : Prop :=
  ∀ (i : Instr) (s t : State) (f : EngineFault), s.status = .running → exec i s = .next t → t.status = .faulted f →
    match f with
    | .unimplementedInstruction _ _ => False
    | .stackOverflow sp _ => (∃ nnn, i = .call nnn) ∧ sp = s.sp ∧ sp.toNat < config.stackLimit + 2
    | .stackUnderflow sp _ => i = .ret ∧ sp = s.sp ∧ config.stackBase < sp.toNat + 2
    | .memoryOutOfRange a k _ => config.memSize ≤ a ∧
        match k with
        | .fetch => False
        | .write => (∃ nnn, i = .call nnn ∧ config.stackBase < s.sp.toNat) ∨ ∃ x, i = .storeBlock x
        | .read => (∃ x y n, i = .drw x y n) ∨ ∃ x, i = .loadBlock x

/-- R24: the render output is the ordered list of the calls made, and no rule reads it: a step from a state that differs in it
alone makes the same calls, after those made before, and leaves the same state apart from it. -/
def Obligations.RenderOutputIsNeverRead : Prop :=
  ∀ (s t : State) (calls : List RenderCall), step s = .next t →
    ∃ more, t.render = s.render ++ more ∧ step { s with render := calls } = .next { t with render := calls ++ more }

/-- R23: nothing reads prog_len after the load. -/
def Obligations.ProgramLengthIsNeverRead : Prop :=
  ∀ (s t : State) (len : Nat), step s = .next t → step { s with progLen := len } = .next { t with progLen := len }

/-- R19: RNG is set at construction to the seed and written and read by RND alone: any other instruction leaves it, and does
the same whatever it holds. -/
def Obligations.OnlyRandomUsesTheGenerator : Prop :=
  (∀ seed : DWord, (State.construct seed).rng = seed) ∧
  ∀ (i : Instr) (s t : State) (d : DWord), (∀ x nn, i ≠ .rnd x nn) → exec i s = .next t →
    t.rng = s.rng ∧ exec i { s with rng := d } = .next { t with rng := d }

/-- The invariant (R18, R22, R28, R41, R93, R100, R105) is kept by every step from every state that has it. The stack's part
rests on decision D4 (entry 14). -/
def Obligations.EveryStepKeepsTheInvariant : Prop := ∀ s t : State, Inv s → step s = .next t → Inv t

/-- The invariant holds at reset. -/
def Obligations.InvariantAtReset : Prop := Inv State.reset

/-- The invariant holds of every loaded state, whatever the seed and the program (R104, R105). -/
def Obligations.InvariantAfterBoot : Prop := ∀ s : State, Loaded s → Inv s

/-- R18, R107: every state of every run, of any program with any seed, has the invariant; in particular
STACK_LIMIT <= SP <= STACK_BASE and STACK_BASE - SP is even throughout (decision D4, entry 14). -/
def Obligations.EveryReachableStateIsLegal : Prop := ∀ s t : State, Loaded s → Reaches s t → Inv t

/-! ### Reset, load and memory -/

/-- R27: what construction leaves, with any seed, and reset as the construction with the model's seed (the seed 1 is the
model's choice, entry 3; the zeroed memory is decision D17, entry 6; I is decision D31, entry 7; the addresses are decisions
D2 and D3, entry 5). -/
def Obligations.ResetValues : Prop :=
  (∀ (seed : DWord) (r : RegIdx) (a : Nat),
    (State.construct seed).reg r = 0 ∧ (State.construct seed).byteAt a = 0 ∧ (State.construct seed).rng = seed) ∧
  (∀ seed : DWord, (State.construct seed).i = 0 ∧ (State.construct seed).pc.toNat = 0x200 ∧
    (State.construct seed).sp.toNat = 0xF00 ∧ (State.construct seed).status = .running ∧
    (State.construct seed).render = []) ∧
  State.reset = State.construct 1

/-- R104, R105: a program that fits is copied verbatim from PROG_BASE, its length goes to prog_len, every other byte is 0 and
the rest is as constructed; one that does not fit is a LoadFailure, no engine (decision D25, entry 24). -/
def Obligations.BootLoadsTheProgram : Prop :=
  ∀ (seed : DWord) (program : List Byte),
    (program.length ≤ config.memSize - config.progBase →
      ∃ s, boot seed program = .next s ∧ s.progLen = program.length ∧
        (∀ k (h : k < program.length), s.byteAt (config.progBase + k) = program[k]) ∧
        (∀ a, a < config.progBase ∨ config.progBase + program.length ≤ a → s.byteAt a = 0) ∧
        s = { State.construct seed with mem := s.mem, progLen := s.progLen }) ∧
    (config.memSize - config.progBase < program.length →
      boot seed program = .refused (.loadFailure program.length))

/-- R29, R38: a byte access inside memory gives the byte last written and writes that byte alone; outside it is the fault with
the address and the kind (decision D5, entry 13), and the access has no effect. -/
def Obligations.ByteAccess : Prop :=
  ∀ (a b : Nat) (v : Byte) (k : Access) (s : State),
    (a < config.memSize → b < config.memSize →
      ∃ t, writeByte a v s = .done t ∧ readByte b k t = .ok (if b = a then v else s.byteAt b) ∧ t = { s with mem := t.mem }) ∧
    (config.memSize ≤ a →
      writeByte a v s = .raised (.memoryOutOfRange a .write s.pc) s ∧
      readByte a k s = .error (.memoryOutOfRange a k s.pc))

/-- The model's own (the canonical form of `mem`): memories in canonical form that read the same at every address are
equal, so that equal machines are equal data. -/
def Obligations.CanonicalMemoriesWithEqualReadsAreEqual : Prop :=
  ∀ m m' : Memory, Memory.wf m = true → Memory.wf m' = true → (∀ a, Memory.lookup m a = Memory.lookup m' a) → m = m'
end

