-- ==== Sys2Proof/Laws/State.lean ====
section
/-! SUPPORT. The record updates of State: one lemma per field per update, true by rfl, so that no later proof unfolds an
update; the register file's read after write; and the same for the operations built on the updates. -/

namespace Sys2Proof.Machine

variable (s : State)

/-! ### `setReg` -/

@[simp] theorem State.setReg_v (r : RegIdx) (b : Byte) : (s.setReg r b).v = s.v.set r b := rfl
@[simp] theorem State.setReg_i (r : RegIdx) (b : Byte) : (s.setReg r b).i = s.i := rfl
@[simp] theorem State.setReg_pc (r : RegIdx) (b : Byte) : (s.setReg r b).pc = s.pc := rfl
@[simp] theorem State.setReg_sp (r : RegIdx) (b : Byte) : (s.setReg r b).sp = s.sp := rfl
@[simp] theorem State.setReg_mem (r : RegIdx) (b : Byte) : (s.setReg r b).mem = s.mem := rfl
@[simp] theorem State.setReg_rng (r : RegIdx) (b : Byte) : (s.setReg r b).rng = s.rng := rfl
@[simp] theorem State.setReg_status (r : RegIdx) (b : Byte) : (s.setReg r b).status = s.status := rfl
@[simp] theorem State.setReg_progLen (r : RegIdx) (b : Byte) : (s.setReg r b).progLen = s.progLen := rfl
@[simp] theorem State.setReg_render (r : RegIdx) (b : Byte) : (s.setReg r b).render = s.render := rfl

/-! ### `setI` -/

@[simp] theorem State.setI_v (w : Word) : (s.setI w).v = s.v := rfl
@[simp] theorem State.setI_i (w : Word) : (s.setI w).i = w := rfl
@[simp] theorem State.setI_pc (w : Word) : (s.setI w).pc = s.pc := rfl
@[simp] theorem State.setI_sp (w : Word) : (s.setI w).sp = s.sp := rfl
@[simp] theorem State.setI_mem (w : Word) : (s.setI w).mem = s.mem := rfl
@[simp] theorem State.setI_rng (w : Word) : (s.setI w).rng = s.rng := rfl
@[simp] theorem State.setI_status (w : Word) : (s.setI w).status = s.status := rfl
@[simp] theorem State.setI_progLen (w : Word) : (s.setI w).progLen = s.progLen := rfl
@[simp] theorem State.setI_render (w : Word) : (s.setI w).render = s.render := rfl

/-! ### `setPc` -/

@[simp] theorem State.setPc_v (w : Word) : (s.setPc w).v = s.v := rfl
@[simp] theorem State.setPc_i (w : Word) : (s.setPc w).i = s.i := rfl
@[simp] theorem State.setPc_pc (w : Word) : (s.setPc w).pc = w := rfl
@[simp] theorem State.setPc_sp (w : Word) : (s.setPc w).sp = s.sp := rfl
@[simp] theorem State.setPc_mem (w : Word) : (s.setPc w).mem = s.mem := rfl
@[simp] theorem State.setPc_rng (w : Word) : (s.setPc w).rng = s.rng := rfl
@[simp] theorem State.setPc_status (w : Word) : (s.setPc w).status = s.status := rfl
@[simp] theorem State.setPc_progLen (w : Word) : (s.setPc w).progLen = s.progLen := rfl
@[simp] theorem State.setPc_render (w : Word) : (s.setPc w).render = s.render := rfl

/-! ### `setSp` -/

@[simp] theorem State.setSp_v (w : Word) : (s.setSp w).v = s.v := rfl
@[simp] theorem State.setSp_i (w : Word) : (s.setSp w).i = s.i := rfl
@[simp] theorem State.setSp_pc (w : Word) : (s.setSp w).pc = s.pc := rfl
@[simp] theorem State.setSp_sp (w : Word) : (s.setSp w).sp = w := rfl
@[simp] theorem State.setSp_mem (w : Word) : (s.setSp w).mem = s.mem := rfl
@[simp] theorem State.setSp_rng (w : Word) : (s.setSp w).rng = s.rng := rfl
@[simp] theorem State.setSp_status (w : Word) : (s.setSp w).status = s.status := rfl
@[simp] theorem State.setSp_progLen (w : Word) : (s.setSp w).progLen = s.progLen := rfl
@[simp] theorem State.setSp_render (w : Word) : (s.setSp w).render = s.render := rfl

/-! ### `setMem` -/

@[simp] theorem State.setMem_v (m : Memory) : (s.setMem m).v = s.v := rfl
@[simp] theorem State.setMem_i (m : Memory) : (s.setMem m).i = s.i := rfl
@[simp] theorem State.setMem_pc (m : Memory) : (s.setMem m).pc = s.pc := rfl
@[simp] theorem State.setMem_sp (m : Memory) : (s.setMem m).sp = s.sp := rfl
@[simp] theorem State.setMem_mem (m : Memory) : (s.setMem m).mem = m := rfl
@[simp] theorem State.setMem_rng (m : Memory) : (s.setMem m).rng = s.rng := rfl
@[simp] theorem State.setMem_status (m : Memory) : (s.setMem m).status = s.status := rfl
@[simp] theorem State.setMem_progLen (m : Memory) : (s.setMem m).progLen = s.progLen := rfl
@[simp] theorem State.setMem_render (m : Memory) : (s.setMem m).render = s.render := rfl

/-! ### `setRng` -/

@[simp] theorem State.setRng_v (d : DWord) : (s.setRng d).v = s.v := rfl
@[simp] theorem State.setRng_i (d : DWord) : (s.setRng d).i = s.i := rfl
@[simp] theorem State.setRng_pc (d : DWord) : (s.setRng d).pc = s.pc := rfl
@[simp] theorem State.setRng_sp (d : DWord) : (s.setRng d).sp = s.sp := rfl
@[simp] theorem State.setRng_mem (d : DWord) : (s.setRng d).mem = s.mem := rfl
@[simp] theorem State.setRng_rng (d : DWord) : (s.setRng d).rng = d := rfl
@[simp] theorem State.setRng_status (d : DWord) : (s.setRng d).status = s.status := rfl
@[simp] theorem State.setRng_progLen (d : DWord) : (s.setRng d).progLen = s.progLen := rfl
@[simp] theorem State.setRng_render (d : DWord) : (s.setRng d).render = s.render := rfl

/-! ### `setStatus` -/

@[simp] theorem State.setStatus_v (x : Status) : (s.setStatus x).v = s.v := rfl
@[simp] theorem State.setStatus_i (x : Status) : (s.setStatus x).i = s.i := rfl
@[simp] theorem State.setStatus_pc (x : Status) : (s.setStatus x).pc = s.pc := rfl
@[simp] theorem State.setStatus_sp (x : Status) : (s.setStatus x).sp = s.sp := rfl
@[simp] theorem State.setStatus_mem (x : Status) : (s.setStatus x).mem = s.mem := rfl
@[simp] theorem State.setStatus_rng (x : Status) : (s.setStatus x).rng = s.rng := rfl
@[simp] theorem State.setStatus_status (x : Status) : (s.setStatus x).status = x := rfl
@[simp] theorem State.setStatus_progLen (x : Status) : (s.setStatus x).progLen = s.progLen := rfl
@[simp] theorem State.setStatus_render (x : Status) : (s.setStatus x).render = s.render := rfl

/-! ### `setProgLen` -/

@[simp] theorem State.setProgLen_v (n : Nat) : (s.setProgLen n).v = s.v := rfl
@[simp] theorem State.setProgLen_i (n : Nat) : (s.setProgLen n).i = s.i := rfl
@[simp] theorem State.setProgLen_pc (n : Nat) : (s.setProgLen n).pc = s.pc := rfl
@[simp] theorem State.setProgLen_sp (n : Nat) : (s.setProgLen n).sp = s.sp := rfl
@[simp] theorem State.setProgLen_mem (n : Nat) : (s.setProgLen n).mem = s.mem := rfl
@[simp] theorem State.setProgLen_rng (n : Nat) : (s.setProgLen n).rng = s.rng := rfl
@[simp] theorem State.setProgLen_status (n : Nat) : (s.setProgLen n).status = s.status := rfl
@[simp] theorem State.setProgLen_progLen (n : Nat) : (s.setProgLen n).progLen = n := rfl
@[simp] theorem State.setProgLen_render (n : Nat) : (s.setProgLen n).render = s.render := rfl

/-! ### `emit` -/

@[simp] theorem State.emit_v (c : RenderCall) : (s.emit c).v = s.v := rfl
@[simp] theorem State.emit_i (c : RenderCall) : (s.emit c).i = s.i := rfl
@[simp] theorem State.emit_pc (c : RenderCall) : (s.emit c).pc = s.pc := rfl
@[simp] theorem State.emit_sp (c : RenderCall) : (s.emit c).sp = s.sp := rfl
@[simp] theorem State.emit_mem (c : RenderCall) : (s.emit c).mem = s.mem := rfl
@[simp] theorem State.emit_rng (c : RenderCall) : (s.emit c).rng = s.rng := rfl
@[simp] theorem State.emit_status (c : RenderCall) : (s.emit c).status = s.status := rfl
@[simp] theorem State.emit_progLen (c : RenderCall) : (s.emit c).progLen = s.progLen := rfl
@[simp] theorem State.emit_render (c : RenderCall) : (s.emit c).render = s.render ++ [c] := rfl

/-! ### The reads of the other updates: registers and memory -/

@[simp] theorem State.setReg_byteAt (r : RegIdx) (b : Byte) (k : Nat) : (s.setReg r b).byteAt k = s.byteAt k := rfl
@[simp] theorem State.setI_reg (w : Word) (q : RegIdx) : (s.setI w).reg q = s.reg q := rfl
@[simp] theorem State.setI_byteAt (w : Word) (k : Nat) : (s.setI w).byteAt k = s.byteAt k := rfl
@[simp] theorem State.setPc_reg (w : Word) (q : RegIdx) : (s.setPc w).reg q = s.reg q := rfl
@[simp] theorem State.setPc_byteAt (w : Word) (k : Nat) : (s.setPc w).byteAt k = s.byteAt k := rfl
@[simp] theorem State.setSp_reg (w : Word) (q : RegIdx) : (s.setSp w).reg q = s.reg q := rfl
@[simp] theorem State.setSp_byteAt (w : Word) (k : Nat) : (s.setSp w).byteAt k = s.byteAt k := rfl
@[simp] theorem State.setMem_reg (m : Memory) (q : RegIdx) : (s.setMem m).reg q = s.reg q := rfl
@[simp] theorem State.setRng_reg (d : DWord) (q : RegIdx) : (s.setRng d).reg q = s.reg q := rfl
@[simp] theorem State.setRng_byteAt (d : DWord) (k : Nat) : (s.setRng d).byteAt k = s.byteAt k := rfl
@[simp] theorem State.setStatus_reg (x : Status) (q : RegIdx) : (s.setStatus x).reg q = s.reg q := rfl
@[simp] theorem State.setStatus_byteAt (x : Status) (k : Nat) : (s.setStatus x).byteAt k = s.byteAt k := rfl
@[simp] theorem State.setProgLen_reg (n : Nat) (q : RegIdx) : (s.setProgLen n).reg q = s.reg q := rfl
@[simp] theorem State.setProgLen_byteAt (n : Nat) (k : Nat) : (s.setProgLen n).byteAt k = s.byteAt k := rfl
@[simp] theorem State.emit_reg (c : RenderCall) (q : RegIdx) : (s.emit c).reg q = s.reg q := rfl
@[simp] theorem State.emit_byteAt (c : RenderCall) (k : Nat) : (s.emit c).byteAt k = s.byteAt k := rfl

/-! ### `pokeByte` and `advance` -/

@[simp] theorem State.pokeByte_v (k : Nat) (b : Byte) : (s.pokeByte k b).v = s.v := rfl
@[simp] theorem State.pokeByte_i (k : Nat) (b : Byte) : (s.pokeByte k b).i = s.i := rfl
@[simp] theorem State.pokeByte_pc (k : Nat) (b : Byte) : (s.pokeByte k b).pc = s.pc := rfl
@[simp] theorem State.pokeByte_sp (k : Nat) (b : Byte) : (s.pokeByte k b).sp = s.sp := rfl
@[simp] theorem State.pokeByte_rng (k : Nat) (b : Byte) : (s.pokeByte k b).rng = s.rng := rfl
@[simp] theorem State.pokeByte_status (k : Nat) (b : Byte) : (s.pokeByte k b).status = s.status := rfl
@[simp] theorem State.pokeByte_progLen (k : Nat) (b : Byte) : (s.pokeByte k b).progLen = s.progLen := rfl
@[simp] theorem State.pokeByte_render (k : Nat) (b : Byte) : (s.pokeByte k b).render = s.render := rfl
@[simp] theorem State.pokeByte_mem (k : Nat) (b : Byte) : (s.pokeByte k b).mem = Memory.store s.mem k b := rfl
@[simp] theorem State.pokeByte_reg (k : Nat) (b : Byte) (q : RegIdx) : (s.pokeByte k b).reg q = s.reg q := rfl
@[simp] theorem State.advance_v (adv : Word) : (s.advance adv).v = s.v := rfl
@[simp] theorem State.advance_i (adv : Word) : (s.advance adv).i = s.i := rfl
@[simp] theorem State.advance_pc (adv : Word) : (s.advance adv).pc = s.pc + adv := rfl
@[simp] theorem State.advance_sp (adv : Word) : (s.advance adv).sp = s.sp := rfl
@[simp] theorem State.advance_mem (adv : Word) : (s.advance adv).mem = s.mem := rfl
@[simp] theorem State.advance_rng (adv : Word) : (s.advance adv).rng = s.rng := rfl
@[simp] theorem State.advance_status (adv : Word) : (s.advance adv).status = s.status := rfl
@[simp] theorem State.advance_progLen (adv : Word) : (s.advance adv).progLen = s.progLen := rfl
@[simp] theorem State.advance_render (adv : Word) : (s.advance adv).render = s.render := rfl
@[simp] theorem State.advance_reg (adv : Word) (q : RegIdx) : (s.advance adv).reg q = s.reg q := rfl
@[simp] theorem State.advance_byteAt (adv : Word) (k : Nat) : (s.advance adv).byteAt k = s.byteAt k := rfl

/-! ### The register file (spec/10_state.md R13: the registers are independent) -/

/-- A register reads what was written to it last, and the other registers are not touched. -/
theorem State.reg_setReg (r q : RegIdx) (b : Byte) : (s.setReg r b).reg q = if q = r then b else s.reg q := by
  simp only [State.reg, State.setReg, Vector.getElem_set, Fin.ext_iff, eq_comm (a := r.val)]

@[simp] theorem State.reg_setReg_same (r : RegIdx) (b : Byte) : (s.setReg r b).reg r = b := by
  simp [State.reg_setReg]

theorem State.reg_setReg_other {r q : RegIdx} (b : Byte) (h : q ≠ r) : (s.setReg r b).reg q = s.reg q := by
  simp [State.reg_setReg, h]

/-- Two register files that read the same are the same. -/
theorem State.v_ext {s t : State} (h : ∀ r, t.reg r = s.reg r) : t.v = s.v := by
  apply Vector.ext
  intro k hk
  exact h ⟨k, hk⟩

/-- The addresses an instruction forms depend on I and SP alone. -/
theorem State.indexed_congr {s t : State} (h : t.i = s.i) (k : Nat) : t.indexed k = s.indexed k := by
  simp only [State.indexed, h]

end Sys2Proof.Machine
end

