-- ==== Sys2Proof/Laws/Memory.lean ====
section
/-! SUPPORT. Memory as a canonical list: read after write, and that every memory operation keeps the canonical form
(`Memory.wf`). -/

namespace Sys2Proof.Machine

theorem config_memSize : config.memSize = 4096 := rfl
theorem config_progBase : config.progBase = 0x200 := rfl
theorem config_stackLimit : config.stackLimit = 0xEA0 := rfl
theorem config_stackBase : config.stackBase = 0xF00 := rfl
theorem config_fbBase : config.fbBase = 0xF00 := rfl
theorem config_screenW : config.screenW = 64 := rfl
theorem config_screenH : config.screenH = 32 := rfl
theorem config_fbSize : config.fbSize = 256 := rfl

/-- The configuration meets the constraints of spec/00_scope.md R6. -/
theorem config_valid : config.Valid := by
  constructor <;> decide

/-! ### The canonical form, entry by entry -/

@[simp] theorem Memory.wfFrom_nil (lo : Nat) : Memory.wfFrom lo [] = true := rfl

@[simp] theorem Memory.wfFrom_cons (lo a : Nat) (v : Byte) (m : Memory) :
    Memory.wfFrom lo ((a, v) :: m) = true ↔
      lo ≤ a ∧ a < config.memSize ∧ v ≠ unlistedByte ∧ Memory.wfFrom (a + 1) m = true := by
  simp [Memory.wfFrom, and_assoc]

theorem Memory.wfFrom_mono {lo lo' : Nat} {m : Memory} (h : Memory.wfFrom lo m = true) (hl : lo' ≤ lo) :
    Memory.wfFrom lo' m = true := by
  cases m with
  | nil => rfl
  | cons c m =>
    obtain ⟨a, v⟩ := c
    simp only [Memory.wfFrom_cons] at h ⊢
    exact ⟨hl.trans h.1, h.2⟩

/-- Below the first address a canonical list may hold, memory is unlisted. -/
theorem Memory.lookup_below {lo a : Nat} {m : Memory} (h : Memory.wfFrom lo m = true) (ha : a < lo) :
    Memory.lookup m a = unlistedByte := by
  induction m generalizing lo with
  | nil => rfl
  | cons c m ih =>
    obtain ⟨b, v⟩ := c
    rw [Memory.wfFrom_cons] at h
    rw [Memory.lookup, if_neg (by omega)]
    exact ih h.2.2.2 (by omega)

/-- The first entry's byte, past it the rest. -/
@[simp] theorem Memory.lookup_cons (b a : Nat) (v : Byte) (m : Memory) :
    Memory.lookup ((b, v) :: m) a = if a = b then v else Memory.lookup m a := rfl

/-! ### Writing -/

theorem Memory.lookup_erase (m : Memory) (a k : Nat) :
    Memory.lookup (Memory.erase m a) k = if k = a then unlistedByte else Memory.lookup m k := by
  induction m with
  | nil => simp [Memory.erase, Memory.lookup]
  | cons c m ih =>
    obtain ⟨b, w⟩ := c
    by_cases hb : b = a
    · subst hb
      have : Memory.erase ((b, w) :: m) b = Memory.erase m b := by simp [Memory.erase]
      rw [this, ih]
      by_cases hk : k = b <;> simp [hk]
    · have : Memory.erase ((b, w) :: m) a = (b, w) :: Memory.erase m a := by simp [Memory.erase, hb]
      rw [this, Memory.lookup_cons, ih, Memory.lookup_cons]
      by_cases hk : k = b
      · subst hk; simp [hb]
      · simp [hk]

theorem Memory.lookup_insert (m : Memory) (a : Nat) (v : Byte) (k : Nat) :
    Memory.lookup (Memory.insert m a v) k = if k = a then v else Memory.lookup m k := by
  induction m with
  | nil => simp [Memory.insert, Memory.lookup]
  | cons c m ih =>
    obtain ⟨b, w⟩ := c
    unfold Memory.insert
    split
    · simp
    · split
      · next hab => subst hab; by_cases hk : k = a <;> simp [hk]
      · next hab =>
        rw [Memory.lookup_cons, ih, Memory.lookup_cons]
        by_cases hk : k = b
        · subst hk; simp [show ¬ k = a by omega]
        · simp [hk]

/-- Read after write, on any list: the byte written at its address, every other byte as before. -/
theorem Memory.lookup_store (m : Memory) (a : Nat) (v : Byte) (k : Nat) :
    Memory.lookup (Memory.store m a v) k = if k = a then v else Memory.lookup m k := by
  unfold Memory.store
  split
  · next hv => rw [Memory.lookup_erase, hv]
  · exact Memory.lookup_insert m a v k

/-- A canonical list stays canonical when an entry goes. -/
theorem Memory.wfFrom_erase {lo : Nat} {m : Memory} (h : Memory.wfFrom lo m = true) (a : Nat) :
    Memory.wfFrom lo (Memory.erase m a) = true := by
  induction m generalizing lo with
  | nil => rfl
  | cons c m ih =>
    obtain ⟨b, w⟩ := c
    rw [Memory.wfFrom_cons] at h
    obtain ⟨h1, h2, h3, h4⟩ := h
    by_cases hb : b = a
    · have : Memory.erase ((b, w) :: m) a = Memory.erase m a := by simp [Memory.erase, hb]
      rw [this]
      exact Memory.wfFrom_mono (ih h4) (by omega)
    · have : Memory.erase ((b, w) :: m) a = (b, w) :: Memory.erase m a := by simp [Memory.erase, hb]
      rw [this, Memory.wfFrom_cons]
      exact ⟨h1, h2, h3, ih h4⟩

theorem Memory.wfFrom_insert {lo a : Nat} {v : Byte} {m : Memory} (h : Memory.wfFrom lo m = true) (hl : lo ≤ a)
    (ha : a < config.memSize) (hv : v ≠ unlistedByte) : Memory.wfFrom lo (Memory.insert m a v) = true := by
  induction m generalizing lo with
  | nil => simp only [Memory.insert, Memory.wfFrom_cons]; exact ⟨hl, ha, hv, rfl⟩
  | cons c m ih =>
    obtain ⟨b, w⟩ := c
    rw [Memory.wfFrom_cons] at h
    obtain ⟨h1, h2, h3, h4⟩ := h
    unfold Memory.insert
    split
    · simp only [Memory.wfFrom_cons]; exact ⟨hl, ha, hv, by omega, h2, h3, h4⟩
    · split
      · next hab => simp only [Memory.wfFrom_cons]; exact ⟨hl, ha, hv, hab ▸ h4⟩
      · simp only [Memory.wfFrom_cons]; exact ⟨h1, h2, h3, ih h4 (by omega)⟩

/-- A write inside memory keeps the canonical form. -/
theorem Memory.wf_store {m : Memory} {a : Nat} {v : Byte} (h : Memory.wf m = true) (ha : a < config.memSize) :
    Memory.wf (Memory.store m a v) = true := by
  unfold Memory.store
  split
  · exact Memory.wfFrom_erase h a
  · next hv => exact Memory.wfFrom_insert h (Nat.zero_le a) ha hv

/-- The same of a state: M[k] after a byte is poked at `a`. -/
theorem State.byteAt_pokeByte (s : State) (a : Nat) (v : Byte) (k : Nat) :
    (s.pokeByte a v).byteAt k = if k = a then v else s.byteAt k :=
  Memory.lookup_store s.mem a v k

/-- The memory after reset lists nothing and is canonical. -/
theorem construct_mem_wf (seed : DWord) : Memory.wf (State.construct seed).mem = true := rfl

end Sys2Proof.Machine
end

