-- ==== Sys2Proof/Laws/Ops.lean ====
section
/-! SUPPORT. What each shared operation can do, said once: byte reads and writes, runs of stores and of loads, the word read,
and the ways an effect ends. Later proofs cite these and do not unfold the operations. -/

namespace Sys2Proof.Machine

/-! ### Effects -/

@[simp] theorem Effect.andThen_done (s : State) (k : State → Effect) : (Effect.done s).andThen k = k s := rfl

@[simp] theorem Effect.andThen_raised (f : EngineFault) (s : State) (k : State → Effect) :
    (Effect.raised f s).andThen k = .raised f s := rfl

@[simp] theorem Effect.finish_done (s : State) (k : State → State) : (Effect.done s).finish k = .next (k s) := rfl

@[simp] theorem Effect.finish_raised (f : EngineFault) (s : State) (k : State → State) :
    (Effect.raised f s).finish k = .next (s.setStatus (.faulted f)) := rfl

/-- Every instruction built on an effect answers a next state. -/
theorem Effect.finish_is_next (e : Effect) (k : State → State) : ∃ t, e.finish k = .next t := by
  cases e with
  | done s => exact ⟨k s, rfl⟩
  | raised f s => exact ⟨_, rfl⟩

/-! ### Byte accesses -/

theorem readByte_inside {a : Nat} (k : Access) (s : State) (h : a < config.memSize) :
    readByte a k s = .ok (s.byteAt a) := if_pos h

theorem readByte_outside {a : Nat} (k : Access) (s : State) (h : config.memSize ≤ a) :
    readByte a k s = .error (.memoryOutOfRange a k s.pc) := if_neg (Nat.not_lt.mpr h)

theorem writeByte_inside {a : Nat} (b : Byte) (s : State) (h : a < config.memSize) :
    writeByte a b s = .done (s.pokeByte a b) := if_pos h

theorem writeByte_outside {a : Nat} (b : Byte) (s : State) (h : config.memSize ≤ a) :
    writeByte a b s = .raised (.memoryOutOfRange a .write s.pc) s := if_neg (Nat.not_lt.mpr h)

theorem withByte_inside {a : Nat} (s : State) (k : Byte → Effect) (h : a < config.memSize) :
    withByte a s k = k (s.byteAt a) := by
  simp only [withByte, readByte_inside .read s h]

theorem withByte_outside {a : Nat} (s : State) (k : Byte → Effect) (h : config.memSize ≤ a) :
    withByte a s k = .raised (.memoryOutOfRange a .read s.pc) s := by
  simp only [withByte, readByte_outside .read s h]

theorem readWord_inside {a : Nat} (k : Access) (s : State) (h : a + 1 < config.memSize) :
    readWord a k s = .ok (wordOfBytes (s.byteAt a) (s.byteAt (a + 1))) := by
  simp only [readWord, readByte_inside k s h, readByte_inside k s (Nat.lt_of_succ_lt h)]

theorem readWord_outside {a : Nat} (k : Access) (s : State) (h : config.memSize ≤ a) :
    readWord a k s = .error (.memoryOutOfRange a k s.pc) := by
  simp only [readWord, readByte_outside k s h]

theorem readWord_last {a : Nat} (k : Access) (s : State) (h : a + 1 = config.memSize) :
    readWord a k s = .error (.memoryOutOfRange config.memSize k s.pc) := by
  simp only [readWord, readByte_inside k s (show a < config.memSize by omega), h,
    readByte_outside k s (Nat.le_refl config.memSize)]

/-- A word read depends on the two bytes and, for its fault, on PC. -/
theorem readWord_congr {s t : State} (a : Nat) (k : Access) (h0 : t.byteAt a = s.byteAt a)
    (h1 : t.byteAt (a + 1) = s.byteAt (a + 1)) (hp : t.pc = s.pc) : readWord a k t = readWord a k s := by
  simp only [readWord, readByte, outOfRange, h0, h1, hp]

/-! ### Runs of stores -/

/-- The bytes that a run of stores leaves at address `k`: the stored one inside the run and inside memory. -/
def runByte (a : Nat) (bs : List Byte) (s : State) (k : Nat) : Byte :=
  if a ≤ k ∧ k < config.memSize then (bs[k - a]?).getD (s.byteAt k) else s.byteAt k

/-- A run of stores changes memory alone; it is done when it ends inside memory, and otherwise raises at the first address
outside with the bytes before it stored. -/
theorem storeBytes_spec (bs : List Byte) : ∀ (a : Nat) (s : State), ∃ m,
    storeBytes a bs s =
      (if a + bs.length ≤ config.memSize ∨ bs = [] then Effect.done (s.setMem m)
       else .raised (.memoryOutOfRange (max a config.memSize) .write s.pc) (s.setMem m)) ∧
    (∀ k, Memory.lookup m k = runByte a bs s k) ∧ (Memory.wf s.mem = true → Memory.wf m = true) := by
  induction bs with
  | nil =>
    intro a s
    refine ⟨s.mem, by simp [storeBytes, State.setMem], ?_, id⟩
    intro k
    simp [runByte, State.byteAt]
  | cons b bs ih =>
    intro a s
    by_cases ha : a < config.memSize
    · obtain ⟨m, h1, h2, h3⟩ := ih (a + 1) (s.pokeByte a b)
      refine ⟨m, ?_, ?_, ?_⟩
      · rw [storeBytes, writeByte_inside b s ha, Effect.andThen_done, h1]
        have e1 : (a + 1 + bs.length ≤ config.memSize ∨ bs = []) ↔
            (a + (b :: bs).length ≤ config.memSize ∨ b :: bs = []) := by
          simp only [List.length_cons, reduceCtorEq, or_false]
          constructor
          · rintro (h | h)
            · omega
            · subst h; simp; omega
          · intro h; left; omega
        have e2 : max (a + 1) config.memSize = max a config.memSize := by omega
        simp only [e1, e2]
        rfl
      · intro k
        rw [h2 k]
        unfold runByte
        rw [State.byteAt_pokeByte]
        by_cases hk : k = a
        · subst hk; simp [ha]
        · by_cases hk2 : a ≤ k
          · have : k - a = (k - (a + 1)) + 1 := by omega
            rw [this]
            simp [hk, show (a + 1 ≤ k) = True by simp; omega, hk2]
          · simp [hk, show ¬ a + 1 ≤ k by omega, hk2]
      · intro hw
        exact h3 (Memory.wf_store hw ha)
    · refine ⟨s.mem, ?_, ?_, id⟩
      · rw [storeBytes, writeByte_outside b s (by omega), Effect.andThen_raised, if_neg (by simp; omega)]
        have : max a config.memSize = a := by omega
        rw [this]
        rfl
      · intro k
        unfold runByte
        rw [if_neg (by omega)]
        rfl

/-! ### Runs of loads -/

/-- A run of loads changes general registers alone; it is done when it ends inside memory, and otherwise raises at the first
address outside with the registers before it loaded. -/
theorem loadRegs_spec (rs : List RegIdx) : ∀ (a : Nat) (s : State), rs.Nodup → ∃ v,
    loadRegs a rs s =
      (if a + rs.length ≤ config.memSize ∨ rs = [] then Effect.done { s with v := v }
       else .raised (.memoryOutOfRange (max a config.memSize) .read s.pc) { s with v := v }) ∧
    (∀ q, q ∉ rs → ({ s with v := v } : State).reg q = s.reg q) ∧
    (∀ k (h : k < rs.length), ({ s with v := v } : State).reg rs[k] =
      if a + k < config.memSize then s.byteAt (a + k) else s.reg rs[k]) := by
  induction rs with
  | nil =>
    intro a s _
    exact ⟨s.v, by simp [loadRegs], by simp, by simp⟩
  | cons r rs ih =>
    intro a s hn
    rw [List.nodup_cons] at hn
    by_cases ha : a < config.memSize
    · obtain ⟨v, h1, h2, h3⟩ := ih (a + 1) (s.setReg r (s.byteAt a)) hn.2
      refine ⟨v, ?_, ?_, ?_⟩
      · rw [loadRegs, withByte_inside s _ ha, h1]
        have e1 : (a + 1 + rs.length ≤ config.memSize ∨ rs = []) ↔
            (a + (r :: rs).length ≤ config.memSize ∨ r :: rs = []) := by
          simp only [List.length_cons, reduceCtorEq, or_false]
          constructor
          · rintro (h | h)
            · omega
            · subst h; simp; omega
          · intro h; left; omega
        have e2 : max (a + 1) config.memSize = max a config.memSize := by omega
        simp only [e1, e2]
        rfl
      · intro q hq
        rw [List.mem_cons, not_or] at hq
        have := h2 q hq.2
        rw [State.reg_setReg_other s _ hq.1] at this
        exact this
      · intro k hk
        cases k with
        | zero =>
          have := h2 r hn.1
          rw [State.reg_setReg_same] at this
          simpa [ha] using this
        | succ k =>
          have hk' : k < rs.length := by simpa using hk
          have := h3 k hk'
          have hne : rs[k] ≠ r := fun h => hn.1 (h ▸ List.getElem_mem hk')
          rw [State.reg_setReg_other s _ hne] at this
          have e : a + 1 + k = a + (k + 1) := by omega
          rw [e] at this
          exact this
    · refine ⟨s.v, ?_, ?_, ?_⟩
      · rw [loadRegs, withByte_outside s _ (by omega), if_neg (by simp; omega)]
        have : max a config.memSize = a := by omega
        rw [this]
      · intros; rfl
      · intro k hk
        rw [if_neg (by omega)]

/-! ### The block of a transfer -/

@[simp] theorem blockRegs_length (x : RegIdx) : (blockRegs x).length = x.val + 1 := by
  have := x.isLt
  simp only [blockRegs, List.length_take, List.length_finRange]
  omega

theorem blockRegs_nodup (x : RegIdx) : (blockRegs x).Nodup :=
  (List.nodup_finRange 16).sublist (List.take_sublist _ _)

theorem blockRegs_getElem (x : RegIdx) (k : Nat) (h : k < (blockRegs x).length) :
    ((blockRegs x)[k]).val = k := by
  simp [blockRegs]

theorem mem_blockRegs (x r : RegIdx) : r ∈ blockRegs x ↔ r ≤ x := by
  constructor
  · intro h
    obtain ⟨k, hk, rfl⟩ := List.getElem_of_mem h
    have h1 := blockRegs_getElem x k hk
    rw [blockRegs_length] at hk
    rw [Fin.le_def, h1]
    omega
  · intro h
    have hk : r.val < (blockRegs x).length := by rw [blockRegs_length]; rw [Fin.le_def] at h; omega
    have : (blockRegs x)[r.val] = r := Fin.ext (blockRegs_getElem x r.val hk)
    exact this ▸ List.getElem_mem hk

theorem blockRegs_ne_nil (x : RegIdx) : blockRegs x ≠ [] := by
  intro h
  have := blockRegs_length x
  rw [h] at this
  simp at this

@[simp] theorem blockValues_length (s : State) (x : RegIdx) : (s.blockValues x).length = x.val + 1 := by
  simp [State.blockValues]

/-- The k-th value of the block is V[k]. -/
theorem blockValues_get (s : State) (x r : RegIdx) (h : r ≤ x) : (s.blockValues x)[r.val]? = some (s.reg r) := by
  have hk : r.val < (blockRegs x).length := by rw [blockRegs_length]; rw [Fin.le_def] at h; omega
  have : (blockRegs x)[r.val] = r := Fin.ext (blockRegs_getElem x r.val hk)
  simp only [State.blockValues, List.getElem?_map, List.getElem?_eq_getElem hk, Option.map_some, this]

end Sys2Proof.Machine
end

