-- ==== Sys2Proof/Laws/Display.lean ====
section
/-! SUPPORT. The display operations, said once: where a pixel is, what toggling one pixel does, what one row of a sprite does
and what the rows of a draw do. Later proofs about CLS and DRW cite these. -/

namespace Sys2Proof.Machine

/-! ### Pixels -/

theorem fbMask_getLsbD (px k : Nat) : (fbMask px).getLsbD k = decide (k = 7 - px % 8) := by
  have h : ∀ r : Fin 8, ∀ j : Fin 8, (0x80#8 >>> r.val).getLsbD j.val = decide (j.val = 7 - r.val) := by decide
  by_cases hk : k < 8
  · exact h ⟨px % 8, Nat.mod_lt _ (by decide)⟩ ⟨k, hk⟩
  · rw [BitVec.getLsbD_of_ge _ _ (by omega)]
    simp; omega

/-- Testing a byte against a pixel's mask is testing one bit. -/
theorem and_fbMask (b : Byte) (px : Nat) : (b &&& fbMask px != 0#8) = b.getLsbD (7 - px % 8) := by
  rw [Bool.eq_iff_iff, bne_iff_ne, ne_eq]
  constructor
  · intro h
    by_contra hb
    apply h
    apply BitVec.eq_of_getLsbD_eq
    intro k hk
    rw [BitVec.getLsbD_and, fbMask_getLsbD, BitVec.getLsbD_zero]
    by_cases e : k = 7 - px % 8
    · subst e; simpa using hb
    · simp [e]
  · intro h h0
    have := congrArg (fun v => v.getLsbD (7 - px % 8)) h0
    simp only [BitVec.getLsbD_and, fbMask_getLsbD, BitVec.getLsbD_zero] at this
    simp [h] at this

/-- A pixel is a bit of its framebuffer byte. -/
theorem pixelOn_eq (s : State) (px py : Nat) : s.pixelOn px py = (s.byteAt (fbByte px py)).getLsbD (7 - px % 8) :=
  and_fbMask _ px

/-- Toggling a byte by a pixel's mask flips that bit alone. -/
theorem xor_fbMask_getLsbD (b : Byte) (px k : Nat) :
    (b ^^^ fbMask px).getLsbD k = (b.getLsbD k != decide (k = 7 - px % 8)) := by
  rw [BitVec.getLsbD_xor, fbMask_getLsbD]

theorem fbByte_eq (px py : Nat) : fbByte px py = 0xF00 + (py * 64 + px) / 8 := rfl

theorem fbByte_inside {px py : Nat} (h : OnScreen px py) : fbByte px py < config.memSize := by
  obtain ⟨h1, h2⟩ := h
  rw [config_screenW] at h1
  rw [config_screenH] at h2
  rw [fbByte_eq, config_memSize]
  omega

/-- On-screen pixels with the same byte and the same bit are the same pixel. -/
theorem pixel_unique {px py qx qy : Nat} (h : OnScreen px py) (h' : OnScreen qx qy) (hb : fbByte px py = fbByte qx qy)
    (hm : px % 8 = qx % 8) : px = qx ∧ py = qy := by
  obtain ⟨h1, h2⟩ := h
  obtain ⟨h3, h4⟩ := h'
  rw [config_screenW] at h1 h3
  rw [config_screenH] at h2 h4
  rw [fbByte_eq, fbByte_eq] at hb
  omega

/-- On-screen pixels with the same byte are in the same row of the screen. -/
theorem fbByte_same_row {px py qx qy : Nat} (h : OnScreen px py) (h' : OnScreen qx qy) (hb : fbByte px py = fbByte qx qy) :
    py = qy := by
  obtain ⟨h1, _⟩ := h
  obtain ⟨h2, _⟩ := h'
  rw [config_screenW] at h1 h2
  rw [fbByte_eq, fbByte_eq] at hb
  omega

/-! ### One pixel -/

/-- What toggling pixel (px, py) leaves. -/
def toggled (px py : Nat) (s : State) : State :=
  ((if s.pixelOn px py then s.setReg vf 1#8 else s).pokeByte (fbByte px py) (s.byteAt (fbByte px py) ^^^ fbMask px)).emit
    (if s.pixelOn px py then .clearPx px py else .drawPx px py)

/-- Drawing an on-screen pixel never raises and leaves `toggled`. -/
theorem drawPixel_onScreen {px py : Nat} (s : State) (h : OnScreen px py) : drawPixel px py s = .done (toggled px py s) := by
  have hi := fbByte_inside h
  unfold drawPixel
  rw [withByte_inside s _ hi]
  simp only
  rw [writeByte_inside _ _ hi, Effect.andThen_done]
  have e1 : (s.byteAt (fbByte px py) &&& fbMask px != 0#8) = s.pixelOn px py := rfl
  have e2 : ((s.byteAt (fbByte px py) ^^^ fbMask px) &&& fbMask px != 0#8) = !s.pixelOn px py := by
    rw [and_fbMask, xor_fbMask_getLsbD, pixelOn_eq]
    simp
  rw [e1, e2]
  unfold toggled
  cases s.pixelOn px py <;> rfl

theorem toggled_byteAt (px py : Nat) (s : State) (k : Nat) :
    (toggled px py s).byteAt k = if k = fbByte px py then s.byteAt k ^^^ fbMask px else s.byteAt k := by
  unfold toggled
  simp only [State.emit_byteAt, State.byteAt_pokeByte]
  by_cases hk : k = fbByte px py
  · subst hk; simp
  · simp only [hk, if_false]
    split <;> rfl

theorem toggled_pixelOn {px py qx qy : Nat} (s : State) (h : OnScreen px py) (hq : OnScreen qx qy) :
    (toggled px py s).pixelOn qx qy = (s.pixelOn qx qy != decide (qx = px ∧ qy = py)) := by
  rw [pixelOn_eq, pixelOn_eq, toggled_byteAt]
  by_cases hb : fbByte qx qy = fbByte px py
  · rw [if_pos hb, xor_fbMask_getLsbD]
    congr 1
    rw [decide_eq_decide]
    constructor
    · intro e
      exact pixel_unique hq h hb (by omega)
    · rintro ⟨rfl, rfl⟩; rfl
  · rw [if_neg hb]
    have : ¬ (qx = px ∧ qy = py) := by rintro ⟨rfl, rfl⟩; exact hb rfl
    simp [this]

theorem toggled_reg (px py : Nat) (s : State) (q : RegIdx) :
    (toggled px py s).reg q = if q = vf ∧ s.pixelOn px py = true then 1#8 else s.reg q := by
  unfold toggled
  simp only [State.emit_reg, State.pokeByte_reg]
  split <;> simp_all [State.reg_setReg]

theorem toggled_wf {px py : Nat} {s : State} (h : OnScreen px py) (hw : Memory.wf s.mem = true) :
    Memory.wf (toggled px py s).mem = true := by
  unfold toggled
  simp only [State.emit_mem, State.pokeByte_mem]
  apply Memory.wf_store _ (fbByte_inside h)
  split <;> exact hw

/-- The call that toggling a pixel makes. -/
def toggleCall (px py : Nat) (s : State) : RenderCall := if s.pixelOn px py then .clearPx px py else .drawPx px py

theorem toggleCall_onScreen {px py : Nat} (s : State) (h : OnScreen px py) : CallOnScreen (toggleCall px py s) := by
  unfold toggleCall
  cases s.pixelOn px py <;> exact h

/-- Toggling a pixel leaves everything else. -/
theorem toggled_rest (px py : Nat) (s : State) :
    (toggled px py s).i = s.i ∧ (toggled px py s).pc = s.pc ∧ (toggled px py s).sp = s.sp ∧
    (toggled px py s).rng = s.rng ∧ (toggled px py s).status = s.status ∧ (toggled px py s).progLen = s.progLen ∧
    (toggled px py s).render = s.render ++ [toggleCall px py s] := by
  unfold toggled toggleCall
  cases h : s.pixelOn px py <;> exact ⟨rfl, rfl, rfl, rfl, rfl, rfl, rfl⟩

/-! ### What a piece of a draw keeps -/

/-- `t` is `s` but for memory, VF and the render output. -/
structure DrawKeeps (s t : State) : Prop where
  i : t.i = s.i
  pc : t.pc = s.pc
  sp : t.sp = s.sp
  rng : t.rng = s.rng
  status : t.status = s.status
  progLen : t.progLen = s.progLen
  regs : ∀ q, q ≠ vf → t.reg q = s.reg q
  wf : Memory.wf s.mem = true → Memory.wf t.mem = true

theorem DrawKeeps.rfl' (s : State) : DrawKeeps s s := ⟨rfl, rfl, rfl, rfl, rfl, rfl, fun _ _ => rfl, id⟩

theorem DrawKeeps.trans {s t u : State} (h : DrawKeeps s t) (h' : DrawKeeps t u) : DrawKeeps s u :=
  ⟨h'.i.trans h.i, h'.pc.trans h.pc, h'.sp.trans h.sp, h'.rng.trans h.rng, h'.status.trans h.status,
   h'.progLen.trans h.progLen, fun q hq => (h'.regs q hq).trans (h.regs q hq), fun hw => h'.wf (h.wf hw)⟩

theorem toggled_keeps {px py : Nat} (s : State) (h : OnScreen px py) : DrawKeeps s (toggled px py s) := by
  obtain ⟨h1, h2, h3, h4, h5, h6, _⟩ := toggled_rest px py s
  exact ⟨h1, h2, h3, h4, h5, h6, fun q hq => by rw [toggled_reg]; simp [hq], toggled_wf h⟩

theorem setVf_keeps (s : State) (b : Byte) : DrawKeeps s (s.setReg vf b) :=
  ⟨rfl, rfl, rfl, rfl, rfl, rfl, fun _ hq => State.reg_setReg_other s b hq, id⟩

/-! ### One row -/

/-- Column `col` of a row with byte `sprite` at `vx` sets a pixel: a set bit inside the right edge. -/
def colHit (sprite : Byte) (vx col : Nat) : Bool := decide (vx + col < config.screenW) && spriteBit sprite col

/-- The columns `c`, `c + 1`, ..., `c + k - 1` of one row: never a raise; each hit column toggles its own pixel, makes its own
call in order, and a hit on a set pixel is a collision. -/
theorem drawCols_spec (sprite : Byte) (vx py : Nat) (hy : py < config.screenH) : ∀ (k c : Nat) (s : State), ∃ t,
    drawCols sprite vx py (List.range' c k) s = .done t ∧ DrawKeeps s t ∧
    (∀ qx qy, OnScreen qx qy → t.pixelOn qx qy =
      (s.pixelOn qx qy != (decide (qy = py ∧ vx + c ≤ qx ∧ qx < vx + c + k) && spriteBit sprite (qx - vx)))) ∧
    (∀ a, (∀ col, c ≤ col → col < c + k → colHit sprite vx col = true → a ≠ fbByte (vx + col) py) →
      t.byteAt a = s.byteAt a) ∧
    ((∃ col, c ≤ col ∧ col < c + k ∧ colHit sprite vx col = true ∧ s.pixelOn (vx + col) py = true) → t.reg vf = 1#8) ∧
    ((¬ ∃ col, c ≤ col ∧ col < c + k ∧ colHit sprite vx col = true ∧ s.pixelOn (vx + col) py = true) →
      t.reg vf = s.reg vf) ∧
    t.render = s.render ++ ((List.range' c k).filter (colHit sprite vx)).map (fun col => toggleCall (vx + col) py s) := by
  intro k
  induction k with
  | zero =>
    intro c s
    refine ⟨s, rfl, DrawKeeps.rfl' s, ?_, fun _ _ => rfl, ?_, fun _ => rfl, by simp⟩
    · intro qx qy _
      rw [decide_eq_false (show ¬ (qy = py ∧ vx + c ≤ qx ∧ qx < vx + c + 0) by omega)]
      simp
    · rintro ⟨col, h1, h2, _⟩; omega
  | succ k ih =>
    intro c s
    rw [List.range'_succ]
    by_cases hx : config.screenW ≤ vx + c
    · -- past the right edge: nothing more is drawn
      have hno : ∀ col, c ≤ col → colHit sprite vx col = false := by
        intro col hc
        simp [colHit, show ¬ vx + col < config.screenW by omega]
      refine ⟨s, ?_, DrawKeeps.rfl' s, ?_, fun _ _ => rfl, ?_, fun _ => rfl, ?_⟩
      · rw [drawCols, if_pos hx]
      · intro qx qy hq
        have := hq.1
        rw [decide_eq_false (show ¬ (qy = py ∧ vx + c ≤ qx ∧ qx < vx + c + (k + 1)) by omega)]
        simp
      · rintro ⟨col, h1, _, h3, _⟩
        rw [hno col h1] at h3
        cases h3
      · rw [← List.range'_succ, List.filter_eq_nil_iff.mpr]
        · simp
        · intro col hc
          rw [List.mem_range'_1] at hc
          simp [hno col hc.1]
    · have hx' : vx + c < config.screenW := by omega
      by_cases hb : spriteBit sprite c = true
      · -- a set bit
        have hs : OnScreen (vx + c) py := ⟨hx', hy⟩
        have hhit : colHit sprite vx c = true := by simp [colHit, hx', hb]
        obtain ⟨t, h1, h2, h3, h4, h5, h6, h7⟩ := ih (c + 1) (toggled (vx + c) py s)
        have hpix : ∀ col, c < col → colHit sprite vx col = true →
            (toggled (vx + c) py s).pixelOn (vx + col) py = s.pixelOn (vx + col) py := by
          intro col hc hcol
          have hlt : vx + col < config.screenW := by
            simp only [colHit, Bool.and_eq_true, decide_eq_true_eq] at hcol
            exact hcol.1
          rw [toggled_pixelOn s hs ⟨hlt, hy⟩]
          rw [decide_eq_false (show ¬ (vx + col = vx + c ∧ py = py) by omega)]
          simp
        refine ⟨t, ?_, (toggled_keeps s hs).trans h2, ?_, ?_, ?_, ?_, ?_⟩
        · rw [drawCols, if_neg hx, if_pos hb, drawPixel_onScreen s hs, Effect.andThen_done, h1]
        · intro qx qy hq
          rw [h3 qx qy hq, toggled_pixelOn s hs hq]
          by_cases e : qx = vx + c ∧ qy = py
          · obtain ⟨rfl, rfl⟩ := e
            simp [hb]
          · have e2 : decide (qy = py ∧ vx + (c + 1) ≤ qx ∧ qx < vx + (c + 1) + k) =
                decide (qy = py ∧ vx + c ≤ qx ∧ qx < vx + c + (k + 1)) := by
              rw [decide_eq_decide]; omega
            rw [e2]
            simp [e]
        · intro a ha
          rw [h4 a (fun col hc1 hc2 => ha col (by omega) (by omega)), toggled_byteAt,
            if_neg (ha c (by omega) (by omega) hhit)]
        · rintro ⟨col, hc1, hc2, hc3, hc4⟩
          by_cases hex : ∃ col, c + 1 ≤ col ∧ col < c + 1 + k ∧ colHit sprite vx col = true ∧
              (toggled (vx + c) py s).pixelOn (vx + col) py = true
          · exact h5 hex
          · rw [h6 hex, toggled_reg]
            have : col = c := by
              by_contra hne
              exact hex ⟨col, by omega, by omega, hc3, by rw [hpix col (by omega) hc3]; exact hc4⟩
            subst this
            simp [hc4]
        · intro hno
          have h0 : ¬ s.pixelOn (vx + c) py = true := fun h => hno ⟨c, by omega, by omega, hhit, h⟩
          rw [h6, toggled_reg]
          · simp [h0]
          · rintro ⟨col, hc1, hc2, hc3, hc4⟩
            exact hno ⟨col, by omega, by omega, hc3, by rw [← hpix col (by omega) hc3]; exact hc4⟩
        · rw [h7, (toggled_rest (vx + c) py s).2.2.2.2.2.2]
          simp only [List.filter_cons, hhit, if_true, List.map_cons, List.append_assoc, List.singleton_append]
          congr 2
          apply List.map_congr_left
          intro col hcol
          rw [List.mem_filter, List.mem_range'_1] at hcol
          simp only [toggleCall, hpix col (by omega) hcol.2]
      · -- a clear bit
        have hhit : colHit sprite vx c = false := by simp [colHit, hb]
        obtain ⟨t, h1, h2, h3, h4, h5, h6, h7⟩ := ih (c + 1) s
        have shift : ∀ P : Nat → Prop, (∃ col, c ≤ col ∧ col < c + (k + 1) ∧ colHit sprite vx col = true ∧ P col) ↔
            ∃ col, c + 1 ≤ col ∧ col < c + 1 + k ∧ colHit sprite vx col = true ∧ P col := by
          intro P
          constructor
          · rintro ⟨col, a1, a2, a3, a4⟩
            have : col ≠ c := by rintro rfl; rw [hhit] at a3; cases a3
            exact ⟨col, by omega, by omega, a3, a4⟩
          · rintro ⟨col, a1, a2, a3, a4⟩
            exact ⟨col, by omega, by omega, a3, a4⟩
        refine ⟨t, ?_, h2, ?_, ?_, ?_, ?_, ?_⟩
        · rw [drawCols, if_neg hx, if_neg hb, h1]
        · intro qx qy hq
          rw [h3 qx qy hq]
          by_cases e : qx = vx + c
          · subst e
            simp [hb]
          · have e2 : decide (qy = py ∧ vx + (c + 1) ≤ qx ∧ qx < vx + (c + 1) + k) =
                decide (qy = py ∧ vx + c ≤ qx ∧ qx < vx + c + (k + 1)) := by
              rw [decide_eq_decide]; omega
            rw [e2]
        · intro a ha
          exact h4 a (fun col hc1 hc2 => ha col (by omega) (by omega))
        · intro h; exact h5 ((shift _).mp h)
        · intro h; exact h6 (fun h' => h ((shift _).mpr h'))
        · rw [h7]
          simp only [List.filter_cons, hhit, Bool.false_eq_true, if_false]

/-- The eight columns of a row, from 0. -/
theorem range_eight : List.range 8 = List.range' 0 8 := rfl

/-- A whole row never raises. -/
theorem drawCols_done (sprite : Byte) (vx py : Nat) (hy : py < config.screenH) (s : State) :
    ∃ t, drawCols sprite vx py (List.range 8) s = .done t := by
  obtain ⟨t, h, _⟩ := drawCols_spec sprite vx py hy 8 0 s
  exact ⟨t, by rw [range_eight, h]⟩

/-! ### Rows -/

/-- One more row at the end of a draw that has not raised: nothing more if a row before it was past the bottom; else the row's
byte is read, and drawn if the row is on the screen, VF being cleared first if it is the first row. -/
theorem drawRows_snoc (base vx vy : Nat) : ∀ (k c : Nat) (first : Bool) (s t : State),
    drawRows base vx vy (List.range' c k) first s = .done t →
    drawRows base vx vy (List.range' c (k + 1)) first s =
      if k ≠ 0 ∧ config.screenH ≤ vy + (c + k - 1) then .done t
      else withByte (base + (c + k)) t fun sprite =>
        if config.screenH ≤ vy + (c + k) then .done t
        else drawCols sprite vx (vy + (c + k)) (List.range 8) (if first && k == 0 then t.setReg vf 0#8 else t) := by
  intro k
  induction k with
  | zero =>
    intro c first s t h
    have h' : s = t := by
      have : Effect.done s = Effect.done t := h
      injection this
    subst h'
    rw [if_neg (by omega), List.range'_succ, drawRows]
    congr 1
    funext sprite
    by_cases hb : config.screenH ≤ vy + c
    · simp only [Nat.add_zero, if_pos hb]
    · obtain ⟨u, hu⟩ := drawCols_done sprite vx (vy + c) (by omega) (if first then s.setReg vf 0#8 else s)
      simp only [Nat.add_zero, if_neg hb, Bool.and_true, beq_self_eq_true, hu, Effect.andThen_done]
      rfl
  | succ k ih =>
    intro c first s t h
    rw [List.range'_succ, drawRows] at h ⊢
    by_cases hr : base + c < config.memSize
    · rw [withByte_inside s _ hr] at h ⊢
      by_cases hb : config.screenH ≤ vy + c
      · simp only [if_pos hb] at h ⊢
        rw [if_pos ⟨by omega, by omega⟩]
        exact h
      · simp only [if_neg hb] at h ⊢
        obtain ⟨u, hu⟩ := drawCols_done (s.byteAt (base + c)) vx (vy + c) (by omega) (if first then s.setReg vf 0#8 else s)
        rw [hu, Effect.andThen_done] at h ⊢
        rw [ih (c + 1) false u t h]
        have e1 : c + 1 + k = c + (k + 1) := by omega
        rw [e1]
        have e2 : (k ≠ 0 ∧ config.screenH ≤ vy + (c + (k + 1) - 1)) ↔
            (k + 1 ≠ 0 ∧ config.screenH ≤ vy + (c + (k + 1) - 1)) := by omega
        simp only [e2, Bool.false_and, Bool.and_false, show (k + 1 == 0) = false from rfl]
    · rw [withByte_outside s _ (by omega)] at h
      cases h

/-- A draw that has raised stays raised, whatever rows follow. -/
theorem drawRows_append_raised (base vx vy : Nat) : ∀ (rows rest : List Nat) (first : Bool) (s t : State) (f : EngineFault),
    drawRows base vx vy rows first s = .raised f t → drawRows base vx vy (rows ++ rest) first s = .raised f t := by
  intro rows
  induction rows with
  | nil => intro rest first s t f h; cases h
  | cons r rows ih =>
    intro rest first s t f h
    rw [List.cons_append, drawRows] at *
    by_cases hr : base + r < config.memSize
    · rw [withByte_inside s _ hr] at h ⊢
      by_cases hb : config.screenH ≤ vy + r
      · simp only [if_pos hb] at h; cases h
      · simp only [if_neg hb] at h ⊢
        obtain ⟨u, hu⟩ := drawCols_done (s.byteAt (base + r)) vx (vy + r) (by omega) (if first then s.setReg vf 0#8 else s)
        rw [hu, Effect.andThen_done] at h ⊢
        exact ih rest false u t f h
    · rw [withByte_outside s _ (by omega)] at h ⊢
      exact h

/-- The rows a draw of `n` rows has to read. -/
theorem SpriteReadable.mono {s : State} {y : RegIdx} {n n' : Nat} (h : SpriteReadable s y n) (hn : n' ≤ n) :
    SpriteReadable s y n' := fun r hr => h r ⟨by have := hr.1; omega, hr.2⟩

/-- The bytes row `r` of a draw at (vx, vy) can change. -/
def CoveredByte (vx vy n a : Nat) : Prop := ∃ px py, DrawCovers vx vy n px py ∧ a = fbByte px py

theorem CoveredByte.mono {vx vy n n' a : Nat} (h : CoveredByte vx vy n a) (hn : n ≤ n') : CoveredByte vx vy n' a := by
  obtain ⟨px, py, ⟨h1, h2, h3, h4, h5⟩, h6⟩ := h
  exact ⟨px, py, ⟨h1, h2, h3, h4, by omega⟩, h6⟩

/-- The rows of a draw that reads nothing outside memory: no raise; only memory under the covered pixels, VF and the render
output change; VF is 0 or 1 once a row is processed, and nothing changes while none is. -/
theorem drawRows_done (base vx vy : Nat) (s : State) : ∀ n : Nat,
    (∀ r, ReadsRow vy n r → base + r < config.memSize) → ∃ t calls,
    drawRows base vx vy (List.range n) true s = .done t ∧ DrawKeeps s t ∧
    (∀ a, ¬ CoveredByte vx vy n a → t.byteAt a = s.byteAt a) ∧ t.render = s.render ++ calls ∧
    (∀ c ∈ calls, CallOnScreen c) ∧
    (n = 0 ∨ config.screenH ≤ vy → t = s) ∧
    (0 < n → vy < config.screenH → t.reg vf = 1#8 ∨ t.reg vf = 0#8) := by
  intro n
  induction n with
  | zero =>
    intro _
    exact ⟨s, [], rfl, DrawKeeps.rfl' s, fun _ _ => rfl, by simp, by simp, fun _ => rfl, by omega⟩
  | succ n ih =>
    intro hread
    obtain ⟨t, calls, h1, h2, h3, h4, h5, h6, h7⟩ := ih (fun r hr => hread r ⟨by have := hr.1; omega, hr.2⟩)
    have hs := drawRows_snoc base vx vy n 0 true s t (by rw [← List.range_eq_range']; exact h1)
    rw [← List.range_eq_range', Nat.zero_add] at hs
    have same : (∃ P : Prop, P ∧ config.screenH ≤ vy + n) → drawRows base vx vy (List.range (n + 1)) true s = .done t →
        ∃ t calls, drawRows base vx vy (List.range (n + 1)) true s = .done t ∧ DrawKeeps s t ∧
        (∀ a, ¬ CoveredByte vx vy (n + 1) a → t.byteAt a = s.byteAt a) ∧ t.render = s.render ++ calls ∧
        (∀ c ∈ calls, CallOnScreen c) ∧ (n + 1 = 0 ∨ config.screenH ≤ vy → t = s) ∧
        (0 < n + 1 → vy < config.screenH → t.reg vf = 1#8 ∨ t.reg vf = 0#8) := by
      rintro ⟨_, _, hb⟩ he
      refine ⟨t, calls, he, h2, fun a ha => h3 a (fun h => ha (h.mono (Nat.le_succ n))), h4, h5, ?_, ?_⟩
      · intro h; exact h6 (Or.inr (by omega))
      · intro _ hv
        exact h7 (by omega) hv
    by_cases hstop : n ≠ 0 ∧ config.screenH ≤ vy + (n - 1)
    · rw [if_pos hstop] at hs
      exact same ⟨True, trivial, by omega⟩ hs
    · rw [if_neg hstop] at hs
      have hr : base + n < config.memSize := hread n ⟨by omega, by omega⟩
      rw [withByte_inside t _ hr] at hs
      by_cases hb : config.screenH ≤ vy + n
      · rw [if_pos hb] at hs
        exact same ⟨True, trivial, hb⟩ hs
      · rw [if_neg hb, range_eight] at hs
        obtain ⟨u, g1, g2, g3, g4, g5, g6, g7⟩ := drawCols_spec (t.byteAt (base + n)) vx (vy + n) (by omega) 8 0
          (if true && n == 0 then t.setReg vf 0#8 else t)
        rw [g1] at hs
        have hk : DrawKeeps t (if true && n == 0 then t.setReg vf 0#8 else t) := by
          split
          · exact setVf_keeps t 0#8
          · exact DrawKeeps.rfl' t
        have hm : (if true && n == 0 then t.setReg vf 0#8 else t).render = t.render ∧
            ∀ a, (if true && n == 0 then t.setReg vf 0#8 else t).byteAt a = t.byteAt a := by
          split
          · exact ⟨rfl, fun _ => rfl⟩
          · exact ⟨rfl, fun _ => rfl⟩
        refine ⟨u, calls ++ ((List.range' 0 8).filter (colHit (t.byteAt (base + n)) vx)).map
            (fun col => toggleCall (vx + col) (vy + n) (if true && n == 0 then t.setReg vf 0#8 else t)),
          hs, (h2.trans hk).trans g2, ?_, ?_, ?_, ?_, ?_⟩
        · intro a ha
          rw [g4 a, hm.2 a, h3 a (fun h => ha (h.mono (Nat.le_succ n)))]
          intro col _ hc hhit he
          simp only [colHit, Bool.and_eq_true, decide_eq_true_eq] at hhit
          exact ha ⟨vx + col, vy + n, ⟨⟨hhit.1, by omega⟩, by omega, by omega, by omega, by omega⟩, he⟩
        · rw [g7, hm.1, h4, List.append_assoc]
        · intro c hc
          rw [List.mem_append] at hc
          rcases hc with hc | hc
          · exact h5 c hc
          · rw [List.mem_map] at hc
            obtain ⟨col, hcol, rfl⟩ := hc
            rw [List.mem_filter] at hcol
            have hhit := hcol.2
            simp only [colHit, Bool.and_eq_true, decide_eq_true_eq] at hhit
            have : OnScreen (vx + col) (vy + n) := ⟨hhit.1, by omega⟩
            exact toggleCall_onScreen _ this
        · intro h; exfalso; omega
        · intro _ _
          by_cases hex : ∃ col, 0 ≤ col ∧ col < 0 + 8 ∧ colHit (t.byteAt (base + n)) vx col = true ∧
              (if true && n == 0 then t.setReg vf 0#8 else t).pixelOn (vx + col) (vy + n) = true
          · exact Or.inl (g5 hex)
          · rw [g6 hex]
            by_cases hn : n = 0
            · subst hn; right; simp
            · have : (if true && n == 0 then t.setReg vf 0#8 else t) = t := by simp [hn]
              rw [this]
              exact h7 (by omega) (by omega)

/-- Each byte is drawn to by one row at most: a byte that the draw of `n + 1` rows leaves as it was is as it was after `n`
rows. -/
theorem drawRows_unchanged_earlier (base vx vy n a : Nat) {s t u : State}
    (hread : ∀ r, ReadsRow vy (n + 1) r → base + r < config.memSize)
    (ht : drawRows base vx vy (List.range n) true s = .done t)
    (hu : drawRows base vx vy (List.range (n + 1)) true s = .done u) (h : u.byteAt a = s.byteAt a) :
    t.byteAt a = s.byteAt a := by
  obtain ⟨t', _, e1, _, e3, _⟩ := drawRows_done base vx vy s n (fun r hr => hread r ⟨by have := hr.1; omega, hr.2⟩)
  rw [ht] at e1
  injection e1 with e1
  subst e1
  by_cases hcov : CoveredByte vx vy n a
  · have hs := drawRows_snoc base vx vy n 0 true s t (by rw [← List.range_eq_range']; exact ht)
    rw [← List.range_eq_range', Nat.zero_add, hu] at hs
    split at hs
    · injection hs with hs
      rw [← hs]; exact h
    · next hc =>
      rw [withByte_inside t _ (hread n ⟨by omega, by omega⟩)] at hs
      split at hs
      · injection hs with hs
        rw [← hs]; exact h
      · next hb =>
        rw [range_eight] at hs
        obtain ⟨w, g1, _, _, g4, _⟩ := drawCols_spec (t.byteAt (base + n)) vx (vy + n) (by omega) 8 0
          (if true && n == 0 then t.setReg vf 0#8 else t)
        rw [g1] at hs
        injection hs with hs
        subst hs
        obtain ⟨px, py, hp, rfl⟩ := hcov
        have := g4 (fbByte px py) (by
          intro col _ _ hhit he
          simp only [colHit, Bool.and_eq_true, decide_eq_true_eq] at hhit
          have := fbByte_same_row hp.1 ⟨hhit.1, by omega⟩ he
          have := hp.2.2.2.2
          omega)
        rw [h] at this
        rw [this]
        split <;> rfl
  · exact e3 a hcov

/-- The rows of any draw, whether it completes or raises: only memory under the covered pixels, VF and the render output
change, every call is on the screen, and a raise is a read outside memory by the instruction at PC. -/
theorem drawRows_effects (base vx vy n : Nat) : ∀ (rows : List Nat) (first : Bool) (s : State), (∀ r ∈ rows, r < n) →
    ∃ t calls,
    (drawRows base vx vy rows first s = .done t ∨
      ∃ a, config.memSize ≤ a ∧ drawRows base vx vy rows first s = .raised (.memoryOutOfRange a .read s.pc) t) ∧
    DrawKeeps s t ∧ (∀ a, ¬ CoveredByte vx vy n a → t.byteAt a = s.byteAt a) ∧ t.render = s.render ++ calls ∧
    ∀ c ∈ calls, CallOnScreen c := by
  intro rows
  induction rows with
  | nil => intro first s _; exact ⟨s, [], Or.inl rfl, DrawKeeps.rfl' s, fun _ _ => rfl, by simp, by simp⟩
  | cons r rows ih =>
    intro first s hrows
    rw [drawRows]
    by_cases hr : base + r < config.memSize
    · rw [withByte_inside s _ hr]
      by_cases hb : config.screenH ≤ vy + r
      · simp only [if_pos hb]
        exact ⟨s, [], Or.inl rfl, DrawKeeps.rfl' s, fun _ _ => rfl, by simp, by simp⟩
      · simp only [if_neg hb]
        rw [range_eight]
        have hrn := hrows r List.mem_cons_self
        generalize hs0 : (if first = true then s.setReg vf 0#8 else s) = s0
        have hk : DrawKeeps s s0 ∧ s0.render = s.render ∧ ∀ a, s0.byteAt a = s.byteAt a := by
          subst hs0
          split
          · exact ⟨setVf_keeps s 0#8, rfl, fun _ => rfl⟩
          · exact ⟨DrawKeeps.rfl' s, rfl, fun _ => rfl⟩
        obtain ⟨u, g1, g2, g3, g4, g5, g6, g7⟩ := drawCols_spec (s.byteAt (base + r)) vx (vy + r) (by omega) 8 0 s0
        obtain ⟨t, calls, h1, h2, h3, h4, h5⟩ := ih false u (fun q hq => hrows q (List.mem_cons_of_mem r hq))
        have hu := hk.1.trans g2
        rw [g1, Effect.andThen_done]
        rw [hu.pc] at h1
        refine ⟨t, ((List.range' 0 8).filter (colHit (s.byteAt (base + r)) vx)).map
            (fun col => toggleCall (vx + col) (vy + r) s0) ++ calls, h1, hu.trans h2, ?_, ?_, ?_⟩
        · intro a ha
          rw [h3 a ha, g4 a, hk.2.2 a]
          intro col _ hc hhit he
          simp only [colHit, Bool.and_eq_true, decide_eq_true_eq] at hhit
          exact ha ⟨vx + col, vy + r, ⟨⟨hhit.1, by omega⟩, by omega, by omega, by omega, by omega⟩, he⟩
        · rw [h4, g7, hk.2.1, List.append_assoc]
        · intro c hc
          rw [List.mem_append] at hc
          rcases hc with hc | hc
          · rw [List.mem_map] at hc
            obtain ⟨col, hcol, rfl⟩ := hc
            rw [List.mem_filter] at hcol
            have hhit := hcol.2
            simp only [colHit, Bool.and_eq_true, decide_eq_true_eq] at hhit
            exact toggleCall_onScreen _ (show OnScreen (vx + col) (vy + r) from ⟨hhit.1, by omega⟩)
          · exact h5 c hc
    · rw [withByte_outside s _ (by omega)]
      exact ⟨s, [], Or.inr ⟨base + r, by omega, rfl⟩, DrawKeeps.rfl' s, fun _ _ => rfl, by simp, by simp⟩

end Sys2Proof.Machine
end

