-- ==== Sys2Proof/Laws/Encoding.lean ====
section
/-! SUPPORT. The fields of the words that the encoder writes, format by format (spec/30_encoding.md R45, R47): what the decoder
reads from each field of an encoded word. -/

namespace Sys2Proof

/-- A field of a word, as arithmetic. -/
theorem extractLsb'_toNat (w : Word) (lo len : Nat) : (w.extractLsb' lo len).toNat = w.toNat / 2 ^ lo % 2 ^ len := by
  simp [BitVec.extractLsb'_toNat, Nat.shiftRight_eq_div_pow]

theorem fieldX_val (w : Word) : (fieldX w).val = w.toNat / 256 % 16 := extractLsb'_toNat w 8 4

theorem fieldY_val (w : Word) : (fieldY w).val = w.toNat / 16 % 16 := extractLsb'_toNat w 4 4

/-! ### Formats as numbers -/

/-- Appending bit vectors, as arithmetic. -/
theorem append_toNat {n m : Nat} (a : BitVec n) (b : BitVec m) : (a ++ b).toNat = a.toNat * 2 ^ m + b.toNat := by
  rw [BitVec.toNat_append, ← Nat.shiftLeft_add_eq_or_of_lt b.isLt, Nat.shiftLeft_eq]

theorem encodeXK_toNat (op : BitVec 4) (x : RegIdx) (nn : Byte) :
    (encodeXK op x nn).toNat = op.toNat * 4096 + x.val * 256 + nn.toNat := by
  simp only [encodeXK, append_toNat, BitVec.toNat_ofFin]
  omega

theorem encodeXYN_toNat (op : BitVec 4) (x y : RegIdx) (n : BitVec 4) :
    (encodeXYN op x y n).toNat = op.toNat * 4096 + x.val * 256 + y.val * 16 + n.toNat := by
  simp only [encodeXYN, append_toNat, BitVec.toNat_ofFin]
  omega

theorem encodeA_toNat (op : BitVec 4) (nnn : Addr12) : (encodeA op nnn).toNat = op.toNat * 4096 + nnn.toNat := by
  simp only [encodeA, append_toNat]
  rfl

/-! ### What the decoder reads from an encoded word -/

@[simp] theorem fieldOp_encodeXK (op : BitVec 4) (x : RegIdx) (nn : Byte) : fieldOp (encodeXK op x nn) = op := by
  have := op.isLt; have := x.isLt; have := nn.isLt
  apply BitVec.eq_of_toNat_eq
  rw [fieldOp, extractLsb'_toNat, encodeXK_toNat]
  omega

@[simp] theorem fieldX_encodeXK (op : BitVec 4) (x : RegIdx) (nn : Byte) : fieldX (encodeXK op x nn) = x := by
  have := op.isLt; have := x.isLt; have := nn.isLt
  apply Fin.ext
  rw [fieldX_val, encodeXK_toNat]
  omega

@[simp] theorem fieldNN_encodeXK (op : BitVec 4) (x : RegIdx) (nn : Byte) : fieldNN (encodeXK op x nn) = nn := by
  have := op.isLt; have := x.isLt; have := nn.isLt
  apply BitVec.eq_of_toNat_eq
  rw [fieldNN, extractLsb'_toNat, encodeXK_toNat]
  omega

@[simp] theorem fieldOp_encodeXYN (op : BitVec 4) (x y : RegIdx) (n : BitVec 4) : fieldOp (encodeXYN op x y n) = op := by
  have := op.isLt; have := x.isLt; have := y.isLt; have := n.isLt
  apply BitVec.eq_of_toNat_eq
  rw [fieldOp, extractLsb'_toNat, encodeXYN_toNat]
  omega

@[simp] theorem fieldX_encodeXYN (op : BitVec 4) (x y : RegIdx) (n : BitVec 4) : fieldX (encodeXYN op x y n) = x := by
  have := op.isLt; have := x.isLt; have := y.isLt; have := n.isLt
  apply Fin.ext
  rw [fieldX_val, encodeXYN_toNat]
  omega

@[simp] theorem fieldY_encodeXYN (op : BitVec 4) (x y : RegIdx) (n : BitVec 4) : fieldY (encodeXYN op x y n) = y := by
  have := op.isLt; have := x.isLt; have := y.isLt; have := n.isLt
  apply Fin.ext
  rw [fieldY_val, encodeXYN_toNat]
  omega

@[simp] theorem fieldN_encodeXYN (op : BitVec 4) (x y : RegIdx) (n : BitVec 4) : fieldN (encodeXYN op x y n) = n := by
  have := op.isLt; have := x.isLt; have := y.isLt; have := n.isLt
  apply BitVec.eq_of_toNat_eq
  rw [fieldN, extractLsb'_toNat, encodeXYN_toNat]
  omega

@[simp] theorem fieldOp_encodeA (op : BitVec 4) (nnn : Addr12) : fieldOp (encodeA op nnn) = op := by
  have := op.isLt; have := nnn.isLt
  apply BitVec.eq_of_toNat_eq
  rw [fieldOp, extractLsb'_toNat, encodeA_toNat]
  omega

@[simp] theorem fieldNNN_encodeA (op : BitVec 4) (nnn : Addr12) : fieldNNN (encodeA op nnn) = nnn := by
  have := op.isLt; have := nnn.isLt
  apply BitVec.eq_of_toNat_eq
  rw [fieldNNN, extractLsb'_toNat, encodeA_toNat]
  omega

/-! ### Bytes and words (R34, R44) -/

@[simp] theorem wordOfBytes_split (w : Word) : wordOfBytes (highByte w) (lowByte w) = w := by
  apply BitVec.eq_of_getLsbD_eq
  intro k hk
  simp only [wordOfBytes, highByte, lowByte, BitVec.getLsbD_append, BitVec.getLsbD_extractLsb']
  by_cases h : k < 8
  · simp [h]
  · simp [h, show k - 8 < 8 by omega, show 8 + (k - 8) = k by omega]

theorem wordOfBytes_toNat (b0 b1 : Byte) : (wordOfBytes b0 b1).toNat = b0.toNat * 256 + b1.toNat := by
  simp only [wordOfBytes, append_toNat]
  rfl

@[simp] theorem highByte_wordOfBytes (b0 b1 : Byte) : highByte (wordOfBytes b0 b1) = b0 := by
  have h0 := b0.isLt; have h1 := b1.isLt
  apply BitVec.eq_of_toNat_eq
  rw [highByte, extractLsb'_toNat, wordOfBytes_toNat]
  omega

@[simp] theorem lowByte_wordOfBytes (b0 b1 : Byte) : lowByte (wordOfBytes b0 b1) = b1 := by
  have h0 := b0.isLt; have h1 := b1.isLt
  apply BitVec.eq_of_toNat_eq
  rw [lowByte, extractLsb'_toNat, wordOfBytes_toNat]
  omega

/-! ### Masks (R50) -/

/-- A word under the mask of rows that fix the key nibble alone. -/
theorem and_keyMask (w : Word) : w &&& 0xF000#16 = (fieldOp w ++ 0x000#12 : BitVec 16) := by
  apply BitVec.eq_of_getLsbD_eq
  intro k hk
  have h : ∀ j : Fin 16, (0xF000#16).getLsbD j.val = decide (12 ≤ j.val) := by decide
  rw [BitVec.getLsbD_and, h ⟨k, hk⟩]
  simp only [fieldOp, BitVec.getLsbD_append, BitVec.getLsbD_extractLsb', BitVec.getLsbD_zero]
  by_cases h2 : k < 12
  · simp [h2]
  · simp [h2, show 12 ≤ k by omega, show k - 12 < 4 by omega, show 12 + (k - 12) = k by omega]

/-- A word under the mask of rows that fix the key nibble and the low nibble. -/
theorem and_keyLowMask (w : Word) : w &&& 0xF00F#16 = (fieldOp w ++ 0x00#8 ++ fieldN w : BitVec 16) := by
  apply BitVec.eq_of_getLsbD_eq
  intro k hk
  have h : ∀ j : Fin 16, (0xF00F#16).getLsbD j.val = decide (12 ≤ j.val ∨ j.val < 4) := by decide
  rw [BitVec.getLsbD_and, h ⟨k, hk⟩]
  simp only [fieldOp, fieldN, BitVec.getLsbD_append, BitVec.getLsbD_extractLsb', BitVec.getLsbD_zero]
  by_cases h1 : k < 4
  · simp [h1]
  · by_cases h2 : k < 12
    · simp [h1, h2, show k - 4 < 8 by omega]
    · simp [h1, show 12 ≤ k by omega, show ¬ k - 4 < 8 by omega, show k - 4 - 8 < 4 by omega,
        show 12 + (k - 4 - 8) = k by omega]

/-- A word under the mask of rows that fix the key nibble and byte 1. -/
theorem and_keyByteMask (w : Word) : w &&& 0xF0FF#16 = (fieldOp w ++ 0x0#4 ++ fieldNN w : BitVec 16) := by
  apply BitVec.eq_of_getLsbD_eq
  intro k hk
  have h : ∀ j : Fin 16, (0xF0FF#16).getLsbD j.val = decide (12 ≤ j.val ∨ j.val < 8) := by decide
  rw [BitVec.getLsbD_and, h ⟨k, hk⟩]
  simp only [fieldOp, fieldNN, BitVec.getLsbD_append, BitVec.getLsbD_extractLsb', BitVec.getLsbD_zero]
  by_cases h1 : k < 8
  · simp [h1]
  · by_cases h2 : k < 12
    · simp [h1, h2, show k - 8 < 4 by omega]
    · simp [h1, show 12 ≤ k by omega, show ¬ k - 8 < 4 by omega, show k - 8 - 4 < 4 by omega,
        show 12 + (k - 8 - 4) = k by omega]

/-! ### When a row selects a word (R50) -/

/-- Fields side by side are equal exactly when each is. -/
theorem append_inj {n m : Nat} (a a' : BitVec n) (b b' : BitVec m) : a ++ b = a' ++ b' ↔ a = a' ∧ b = b' := by
  constructor
  · intro h
    have h' := congrArg BitVec.toNat h
    simp only [append_toNat] at h'
    have hb := b.isLt
    have hb' := b'.isLt
    have hq : a.toNat = a'.toNat := by
      have h1 : (a.toNat * 2 ^ m + b.toNat) / 2 ^ m = a.toNat := by
        rw [Nat.mul_comm, Nat.mul_add_div (Nat.two_pow_pos m), Nat.div_eq_of_lt hb, Nat.add_zero]
      have h2 : (a'.toNat * 2 ^ m + b'.toNat) / 2 ^ m = a'.toNat := by
        rw [Nat.mul_comm, Nat.mul_add_div (Nat.two_pow_pos m), Nat.div_eq_of_lt hb', Nat.add_zero]
      rw [← h1, ← h2, h']
    rw [hq] at h'
    exact ⟨BitVec.eq_of_toNat_eq hq, BitVec.eq_of_toNat_eq (by omega)⟩
  · rintro ⟨rfl, rfl⟩; rfl

/-- A row that fixes the whole word. -/
theorem selects_word (n : Nat) (m w : Word) : (OpcodeRow.mk n m 0xFFFF#16).selects w = true ↔ w = m := by
  have h : 0xFFFF#16 = BitVec.allOnes 16 := by decide
  simp only [OpcodeRow.selects, h, BitVec.and_allOnes, beq_iff_eq]

/-- A row that fixes the key nibble. -/
theorem selects_key (n : Nat) (op : BitVec 4) (w : Word) :
    (OpcodeRow.mk n (op ++ 0x000#12 : BitVec 16) 0xF000#16).selects w = true ↔ fieldOp w = op := by
  rw [OpcodeRow.selects, and_keyMask, beq_iff_eq]
  exact (append_inj (fieldOp w) op 0x000#12 0x000#12).trans ⟨fun h => h.1, fun h => ⟨h, rfl⟩⟩

/-- A row that fixes the key nibble and the low nibble. -/
theorem selects_keyLow (n : Nat) (op lo : BitVec 4) (w : Word) :
    (OpcodeRow.mk n (op ++ 0x00#8 ++ lo : BitVec 16) 0xF00F#16).selects w = true ↔ fieldOp w = op ∧ fieldN w = lo := by
  rw [OpcodeRow.selects, and_keyLowMask, beq_iff_eq]
  refine (append_inj (fieldOp w ++ 0x00#8) (op ++ 0x00#8) (fieldN w) lo).trans (and_congr_left fun _ => ?_)
  exact (append_inj (fieldOp w) op 0x00#8 0x00#8).trans ⟨fun h => h.1, fun h => ⟨h, rfl⟩⟩

/-- A row that fixes the key nibble and byte 1. -/
theorem selects_keyByte (n : Nat) (op : BitVec 4) (b : Byte) (w : Word) :
    (OpcodeRow.mk n (op ++ 0x0#4 ++ b : BitVec 16) 0xF0FF#16).selects w = true ↔ fieldOp w = op ∧ fieldNN w = b := by
  rw [OpcodeRow.selects, and_keyByteMask, beq_iff_eq]
  refine (append_inj (fieldOp w ++ 0x0#4) (op ++ 0x0#4) (fieldNN w) b).trans (and_congr_left fun _ => ?_)
  exact (append_inj (fieldOp w) op 0x0#4 0x0#4).trans ⟨fun h => h.1, fun h => ⟨h, rfl⟩⟩

end Sys2Proof
end

