-- ==== Sys2Proof/Laws/PerInstr.lean ====
section
/-! SUPPORT. Facts stated of every instruction as syntax, one lemma per constructor. Family `EncodesInRow`: an instruction's
encoding selects the instruction's own row of the opcode map (spec/30_encoding.md R50), the encoder and the map being two
transcriptions of the same table. -/

namespace Sys2Proof.Laws.EncodesInRow

/-- The encoding of `i` selects the row of `i` (`w & mask == match`). -/
def Statement (i : Instr) : Prop := i.row.selects (encode i) = true

theorem key_row {w : Word} {n : Nat} {m : Word} {op : BitVec 4} (h : fieldOp w = op) (hm : (op ++ 0x000#12 : BitVec 16) = m) :
    (OpcodeRow.mk n m 0xF000#16).selects w = true := by
  simp only [OpcodeRow.selects, and_keyMask, h, ← hm, beq_self_eq_true]

theorem keyLow_row {w : Word} {n : Nat} {m : Word} {op lo : BitVec 4} (h : fieldOp w = op) (hl : fieldN w = lo)
    (hm : (op ++ 0x00#8 ++ lo : BitVec 16) = m) : (OpcodeRow.mk n m 0xF00F#16).selects w = true := by
  simp only [OpcodeRow.selects, and_keyLowMask, h, hl, ← hm, beq_self_eq_true]

theorem keyByte_row {w : Word} {n : Nat} {m : Word} {op : BitVec 4} {b : Byte} (h : fieldOp w = op) (hb : fieldNN w = b)
    (hm : (op ++ 0x0#4 ++ b : BitVec 16) = m) : (OpcodeRow.mk n m 0xF0FF#16).selects w = true := by
  simp only [OpcodeRow.selects, and_keyByteMask, h, hb, ← hm, beq_self_eq_true]

theorem cls : Statement .cls := (rfl : Instr.cls.row.selects (encode .cls) = true)
theorem ret : Statement .ret := (rfl : Instr.ret.row.selects (encode .ret) = true)
theorem jp (nnn : Addr12) : Statement (.jp nnn) := key_row (fieldOp_encodeA _ _) rfl
theorem call (nnn : Addr12) : Statement (.call nnn) := key_row (fieldOp_encodeA _ _) rfl
theorem seImm (x : RegIdx) (nn : Byte) : Statement (.seImm x nn) := key_row (fieldOp_encodeXK _ _ _) rfl
theorem sneImm (x : RegIdx) (nn : Byte) : Statement (.sneImm x nn) := key_row (fieldOp_encodeXK _ _ _) rfl
theorem seReg (x y : RegIdx) : Statement (.seReg x y) := keyLow_row (fieldOp_encodeXYN _ _ _ _) (fieldN_encodeXYN _ _ _ _) rfl
theorem ldImm (x : RegIdx) (nn : Byte) : Statement (.ldImm x nn) := key_row (fieldOp_encodeXK _ _ _) rfl
theorem addImm (x : RegIdx) (nn : Byte) : Statement (.addImm x nn) := key_row (fieldOp_encodeXK _ _ _) rfl
theorem ldReg (x y : RegIdx) : Statement (.ldReg x y) := keyLow_row (fieldOp_encodeXYN _ _ _ _) (fieldN_encodeXYN _ _ _ _) rfl
theorem orReg (x y : RegIdx) : Statement (.orReg x y) := keyLow_row (fieldOp_encodeXYN _ _ _ _) (fieldN_encodeXYN _ _ _ _) rfl
theorem andReg (x y : RegIdx) : Statement (.andReg x y) := keyLow_row (fieldOp_encodeXYN _ _ _ _) (fieldN_encodeXYN _ _ _ _) rfl
theorem xorReg (x y : RegIdx) : Statement (.xorReg x y) := keyLow_row (fieldOp_encodeXYN _ _ _ _) (fieldN_encodeXYN _ _ _ _) rfl
theorem addReg (x y : RegIdx) : Statement (.addReg x y) := keyLow_row (fieldOp_encodeXYN _ _ _ _) (fieldN_encodeXYN _ _ _ _) rfl
theorem subReg (x y : RegIdx) : Statement (.subReg x y) := keyLow_row (fieldOp_encodeXYN _ _ _ _) (fieldN_encodeXYN _ _ _ _) rfl
theorem shr (x y : RegIdx) : Statement (.shr x y) := keyLow_row (fieldOp_encodeXYN _ _ _ _) (fieldN_encodeXYN _ _ _ _) rfl
theorem subnReg (x y : RegIdx) : Statement (.subnReg x y) := keyLow_row (fieldOp_encodeXYN _ _ _ _) (fieldN_encodeXYN _ _ _ _) rfl
theorem shl (x y : RegIdx) : Statement (.shl x y) := keyLow_row (fieldOp_encodeXYN _ _ _ _) (fieldN_encodeXYN _ _ _ _) rfl
theorem ldI (nnn : Addr12) : Statement (.ldI nnn) := key_row (fieldOp_encodeA _ _) rfl
theorem rnd (x : RegIdx) (nn : Byte) : Statement (.rnd x nn) := key_row (fieldOp_encodeXK _ _ _) rfl
theorem drw (x y : RegIdx) (n : Nat) : Statement (.drw x y n) := key_row (fieldOp_encodeXYN _ _ _ _) rfl
theorem addI (x : RegIdx) : Statement (.addI x) := keyByte_row (fieldOp_encodeXK _ _ _) (fieldNN_encodeXK _ _ _) rfl
theorem storeBlock (x : RegIdx) : Statement (.storeBlock x) := keyByte_row (fieldOp_encodeXK _ _ _) (fieldNN_encodeXK _ _ _) rfl
theorem loadBlock (x : RegIdx) : Statement (.loadBlock x) := keyByte_row (fieldOp_encodeXK _ _ _) (fieldNN_encodeXK _ _ _) rfl

end Sys2Proof.Laws.EncodesInRow
end

