-- ==== Sys2Proof/Laws/Step.lean ====
section
/-! SUPPORT. What the fetch, the step and the loader do, said once. A proof about a step cites `step_cases` and does not unfold
`step`. -/

namespace Sys2Proof.Machine

/-- The fetch, both bytes in memory. -/
theorem fetch_inside (s : State) (h : s.pc.toNat + 1 < config.memSize) :
    fetch s = .ok (wordOfBytes (s.byteAt s.pc.toNat) (s.byteAt (s.pc.toNat + 1))) := readWord_inside .fetch s h

/-- A failed fetch names the address PC. -/
theorem fetch_error {s : State} {f : EngineFault} (h : fetch s = .error f) :
    ∃ a, config.memSize ≤ a ∧ f = .memoryOutOfRange a .fetch s.pc := by
  by_cases h0 : s.pc.toNat < config.memSize
  · by_cases h1 : s.pc.toNat + 1 < config.memSize
    · rw [fetch_inside s h1] at h; cases h
    · rw [fetch, readWord_last .fetch s (by omega)] at h
      injection h with h
      exact ⟨_, Nat.le_refl _, h.symm⟩
  · rw [fetch, readWord_outside .fetch s (by omega)] at h
    injection h with h
    exact ⟨_, Nat.le_of_not_lt h0, h.symm⟩

/-- Everything a step that answers next can be: of a Running engine, and a failed fetch, an undecodable word, or the execution
of the instruction fetched. -/
theorem step_cases {s t : State} (h : step s = .next t) : s.status = .running ∧
    ((∃ f, fetch s = .error f ∧ t = s.setStatus (.faulted f)) ∨
     (∃ w e, fetch s = .ok w ∧ decodeWord w = .error e ∧
        t = s.setStatus (.faulted (.unimplementedInstruction w s.pc))) ∨
     ∃ w i, fetch s = .ok w ∧ decodeWord w = .ok i ∧ exec i s = .next t) := by
  unfold step at h
  split at h
  · next hs =>
    refine ⟨hs, ?_⟩
    split at h
    · next f hf => injection h with h; exact Or.inl ⟨f, hf, h.symm⟩
    · next w hf =>
      split at h
      · next e he => injection h with h; exact Or.inr (Or.inl ⟨w, e, hf, he, h.symm⟩)
      · next i he => exact Or.inr (Or.inr ⟨w, i, hf, he, h⟩)
  · cases h

/-- The loader's copy changes memory alone: the copied bytes, every other byte as before, the canonical form kept. -/
theorem copyBytes_spec (bs : List Byte) : ∀ (a : Nat) (s : State), ∃ m, copyBytes a bs s = s.setMem m ∧
    (∀ k, Memory.lookup m k = if a ≤ k then (bs[k - a]?).getD (s.byteAt k) else s.byteAt k) ∧
    (a + bs.length ≤ config.memSize → Memory.wf s.mem = true → Memory.wf m = true) := by
  induction bs with
  | nil => intro a s; exact ⟨s.mem, rfl, by simp [State.byteAt], fun _ => id⟩
  | cons b bs ih =>
    intro a s
    obtain ⟨m, h1, h2, h3⟩ := ih (a + 1) (s.pokeByte a b)
    refine ⟨m, h1, ?_, ?_⟩
    · intro k
      rw [h2, State.byteAt_pokeByte]
      by_cases hk : k = a
      · subst hk; simp
      · by_cases hk2 : a ≤ k
        · have : k - a = (k - (a + 1)) + 1 := by omega
          rw [this]
          simp [hk, show a + 1 ≤ k by omega, hk2]
        · simp [hk, show ¬ a + 1 ≤ k by omega, hk2]
    · intro hl hw
      simp only [List.length_cons] at hl
      exact h3 (by omega) (Memory.wf_store hw (by omega))

end Sys2Proof.Machine
end

