-- ==== Sys2Proof/Tests/Slice0.lean ====
section
/-! SUPPORT. Tests, and for every obligation with hypotheses a witness that meets them. The expected results are the vectors of
spec/95_test_vectors.md (E, VC, VA, VB, VX, VG, section 2.7) and the patterns of spec/30_encoding.md R50; each test names its
vector. Witness states are made by hand. -/

namespace Sys2Proof.Tests

open Sys2Proof Sys2Proof.Machine

/-! ### Helpers -/

/-- The next state of an outcome, if it is one. -/
def after : Outcome → Option State
  | .next s => some s
  | .fault _ => none
  | .refused _ => none

/-- The start state of spec/95_test_vectors.md: the program at 0x200, seed 1. -/
def loaded (program : List Byte) : State := (after (boot 1 program)).getD State.reset

/-- One step of a program from the start state as `setup` changes it. -/
def stepFrom (program : List Byte) (setup : State → State) : Option State := after (step (setup (loaded program)))

/-- What a test of an ALU instruction looks at: V[r], VF and PC. -/
def seen (r : RegIdx) (t : State) : Byte × Byte × Word := (t.reg r, t.reg 15, t.pc)

/-! ### Well-formedness: the one check, and an ill-formed term it refuses -/

theorem test_wellFormed_rows : Instr.wellFormed (.drw 0 0 16) = false ∧ Instr.wellFormed (.drw 0 0 15) = true ∧
    Instr.wellFormed (.drw 15 15 0) = true ∧ Instr.wellFormed (.drw 1 2 4096) = false := by decide

theorem test_wellFormed_others : Instr.wellFormed .cls = true ∧ Instr.wellFormed (.jp 0xFFF#12) = true ∧
    Instr.wellFormed (.rnd 15 0xFF#8) = true ∧ Instr.wellFormed (.loadBlock 15) = true := by decide

/-! ### Decoding: every constructor from a word written out from R50 (its nibbles op, x, y, n or op, nnn) -/

theorem test_decode_control :
    decodeWord 0b0000000011100000#16 = .ok .cls ∧ decodeWord 0b0000000011101110#16 = .ok .ret ∧
    decodeWord 0b0001101001011100#16 = .ok (.jp 0xA5C#12) ∧ decodeWord 0b0010010101101101#16 = .ok (.call 0x56D#12) ∧
    decodeWord 0b0011101101000001#16 = .ok (.seImm 11 0x41#8) ∧ decodeWord 0b0100000110000010#16 = .ok (.sneImm 1 0x82#8) ∧
    decodeWord 0b0101011010010000#16 = .ok (.seReg 6 9) := by decide

theorem test_decode_loads :
    decodeWord 0b0110001111000101#16 = .ok (.ldImm 3 0xC5#8) ∧ decodeWord 0b0111110000111010#16 = .ok (.addImm 12 0x3A#8) ∧
    decodeWord 0b1000001101010000#16 = .ok (.ldReg 3 5) ∧ decodeWord 0b1010100100010010#16 = .ok (.ldI 0x912#12) ∧
    decodeWord 0b1100110100001111#16 = .ok (.rnd 13 0x0F#8) ∧ decodeWord 0b1101000100101100#16 = .ok (.drw 1 2 12) ∧
    decodeWord 0b1111011100011110#16 = .ok (.addI 7) ∧ decodeWord 0b1111111001010101#16 = .ok (.storeBlock 14) ∧
    decodeWord 0b1111100001100101#16 = .ok (.loadBlock 8) := by decide

theorem test_decode_alu :
    decodeWord 0b1000001101010001#16 = .ok (.orReg 3 5) ∧ decodeWord 0b1000001101010010#16 = .ok (.andReg 3 5) ∧
    decodeWord 0b1000001101010011#16 = .ok (.xorReg 3 5) ∧ decodeWord 0b1000001101010100#16 = .ok (.addReg 3 5) ∧
    decodeWord 0b1000001101010101#16 = .ok (.subReg 3 5) ∧ decodeWord 0b1000001101010110#16 = .ok (.shr 3 5) ∧
    decodeWord 0b1000001101010111#16 = .ok (.subnReg 3 5) ∧ decodeWord 0b1000001101011110#16 = .ok (.shl 3 5) := by decide

/-- The unimplemented words of section 2.7. -/
theorem test_unimplementedWords : ([0x5121#16, 0x8008#16, 0x800F#16, 0x9120#16, 0xB200#16, 0xE09E#16, 0xF007#16, 0xF029#16,
    0xF033#16, 0x0123#16, 0x01E0#16, 0x01EE#16, 0x0000#16, 0xFFFF#16].all
      fun w => decodeWord w == .error (.unimplemented w)) = true := by decide

/-- Section 2.1, the fields of 0x8AB4 and 0xD123. -/
theorem test_fields : fieldX 0x8AB4#16 = 10 ∧ fieldY 0x8AB4#16 = 11 ∧ fieldN 0x8AB4#16 = 4#4 ∧ fieldNN 0x8AB4#16 = 0xB4#8 ∧
    fieldNNN 0x8AB4#16 = 0xAB4#12 ∧ fieldX 0xD123#16 = 1 ∧ fieldNNN 0xD123#16 = 0x123#12 := by decide

/-- The first byte of a stream is the high byte (E1's first word); one byte is too short. -/
theorem test_decode_bytes : decode [0x60#8, 0x05#8, 0x70#8] = .ok (.ldImm 0 0x05#8, [0x70#8]) ∧ decode [0x60#8] = .error .tooShort := by
  decide

theorem test_decodeTableWord : decodeTableWord 16 0x6005 = some (.ldImm 0 0x05#8) ∧ decodeTableWord 16 0x5121 = none := by decide

/-- The word placed where the step fetches is run. -/
theorem test_withFetchWord : (after (step (State.reset.withFetchWord 16 0x6A42))).map (fun t => (t.reg 10, t.pc)) =
    some (0x42#8, 0x202#16) := by decide

/-! ### Control flow -/

/-- VC1. -/
theorem test_jp_halts : (stepFrom [0x12, 0x00] id).map (fun t => (t.status, t.pc)) = some (.halted, 0x200#16) := by decide

/-- VC2. -/
theorem test_jp_jumps : (stepFrom [0x12, 0x06] id).map (fun t => (t.status, t.pc)) = some (.running, 0x206#16) := by decide

/-- VC8: the last free slot. -/
theorem test_call_lastSlot : (stepFrom [0x23, 0x00] (·.setSp 0xEA2)).map
    (fun t => (t.pc, t.sp, t.byteAt 0xEA0, t.byteAt 0xEA1, t.status)) =
    some (0x300#16, 0xEA0#16, 0x02#8, 0x02#8, .running) := by decide

/-- VC7. -/
theorem test_call_overflow : (stepFrom [0x23, 0x00] (·.setSp 0xEA0)).map (fun t => (t.pc, t.status)) =
    some (0x200#16, .faulted (.stackOverflow 0xEA0#16 0x200#16)) := by decide

/-- VC9: a full 16-bit big-endian pop. -/
theorem test_ret_pops : (stepFrom [0x00, 0xEE] fun s => ((s.setSp 0xEFE).pokeByte 0xEFE 0x0F).pokeByte 0xEFF 0xFF).map
    (fun t => (t.pc, t.sp, t.status)) = some (0x0FFF#16, 0xF00#16, .running) := by decide

/-- VC6. -/
theorem test_ret_underflow : (stepFrom [0x00, 0xEE] id).map (fun t => (t.pc, t.sp, t.status)) =
    some (0x200#16, 0xF00#16, .faulted (.stackUnderflow 0xF00#16 0x200#16)) := by decide

/-- VC12, VC13. -/
theorem test_seImm : (stepFrom [0x33, 0x42] (·.setReg 3 0x42)).map (·.pc) = some 0x204#16 ∧
    (stepFrom [0x33, 0x42] (·.setReg 3 0x41)).map (·.pc) = some 0x202#16 := by decide

/-- VC14, VC15. -/
theorem test_sneImm : (stepFrom [0x40, 0x00] id).map (·.pc) = some 0x202#16 ∧
    (stepFrom [0x40, 0x01] id).map (·.pc) = some 0x204#16 := by decide

/-- VC16, VC17. -/
theorem test_seReg : (stepFrom [0x51, 0x20] fun s => (s.setReg 1 7).setReg 2 7).map (·.pc) = some 0x204#16 ∧
    (stepFrom [0x51, 0x20] fun s => (s.setReg 1 7).setReg 2 8).map (·.pc) = some 0x202#16 := by decide

/-- VC10, VC11: the fetch at the end of memory. -/
theorem test_fetch_outside :
    (stepFrom [] fun s => (s.setPc 0xFFF).pokeByte 0xFFF 0x12).map (fun t => (t.pc, t.status)) =
      some (0xFFF#16, .faulted (.memoryOutOfRange 0x1000 .fetch 0xFFF#16)) ∧
    (stepFrom [] (·.setPc 0x1000)).map (fun t => (t.pc, t.status)) =
      some (0x1000#16, .faulted (.memoryOutOfRange 0x1000 .fetch 0x1000#16)) := by decide

/-- E1b's third step: the word 0x0000. -/
theorem test_step_unimplemented : (stepFrom [] (·.setPc 0x204)).map (fun t => (t.pc, t.status)) =
    some (0x204#16, .faulted (.unimplementedInstruction 0x0000#16 0x204#16)) := by decide

/-- R57: no step once halted. -/
theorem test_step_halted : step ((loaded [0x60, 0x05]).setStatus .halted) = .fault (.notRunning .halted) := rfl

/-! ### Arithmetic and logic -/

/-- VA1. -/
theorem test_ldImm : (stepFrom [0x60, 0x05] id).map (seen 0) = some (0x05#8, 0x00#8, 0x202#16) := by decide

/-- VA3, VA4: wrap and no flag. -/
theorem test_addImm : (stepFrom [0x70, 0x01] fun s => (s.setReg 0 0xFF).setReg 15 0x5A).map (seen 0) =
      some (0x00#8, 0x5A#8, 0x202#16) ∧
    (stepFrom [0x7F, 0x01] (·.setReg 15 0xFF)).map (seen 15) = some (0x00#8, 0x00#8, 0x202#16) := by decide

/-- VA5. -/
theorem test_ldReg : (stepFrom [0x80, 0x10] (·.setReg 1 0x3C)).map (seen 0) = some (0x3C#8, 0x00#8, 0x202#16) := by decide

/-- VA6. -/
theorem test_orReg : (stepFrom [0x80, 0x11] fun s => ((s.setReg 0 0xF0).setReg 1 0x0F).setReg 15 0x5A).map (seen 0) =
    some (0xFF#8, 0x5A#8, 0x202#16) := by decide

/-- VA7. -/
theorem test_andReg : (stepFrom [0x80, 0x12] fun s => ((s.setReg 0 0xF0).setReg 1 0x3C).setReg 15 0x5A).map (seen 0) =
    some (0x30#8, 0x5A#8, 0x202#16) := by decide

/-- VA8. -/
theorem test_xorReg : (stepFrom [0x80, 0x13] fun s => ((s.setReg 0 0xF0).setReg 1 0x3C).setReg 15 0x5A).map (seen 0) =
    some (0xCC#8, 0x5A#8, 0x202#16) := by decide

/-- VA10, VA11. -/
theorem test_addReg : (stepFrom [0x80, 0x14] fun s => (s.setReg 0 0xFF).setReg 1 0x01).map (seen 0) =
      some (0x00#8, 0x01#8, 0x202#16) ∧
    (stepFrom [0x80, 0x14] fun s => (s.setReg 0 0x80).setReg 1 0x7F).map (seen 0) = some (0xFF#8, 0x00#8, 0x202#16) := by decide

/-- VA13, VA14: x = 15 and y = 15. -/
theorem test_addReg_vf : (stepFrom [0x8F, 0x14] fun s => (s.setReg 15 0xFF).setReg 1 0x02).map (seen 15) =
      some (0x01#8, 0x01#8, 0x202#16) ∧
    (stepFrom [0x80, 0xF4] fun s => (s.setReg 0 0x10).setReg 15 0x01).map (seen 0) = some (0x11#8, 0x00#8, 0x202#16) := by decide

/-- VA16, VA18: borrow, and equal operands. -/
theorem test_subReg : (stepFrom [0x80, 0x15] fun s => (s.setReg 0 0x05).setReg 1 0x07).map (seen 0) =
      some (0xFE#8, 0x00#8, 0x202#16) ∧
    (stepFrom [0x80, 0x15] fun s => (s.setReg 0 0x07).setReg 1 0x07).map (seen 0) = some (0x00#8, 0x01#8, 0x202#16) := by decide

/-- VA21, VA22. -/
theorem test_subnReg : (stepFrom [0x80, 0x17] fun s => (s.setReg 0 0x05).setReg 1 0x07).map (seen 0) =
      some (0x02#8, 0x01#8, 0x202#16) ∧
    (stepFrom [0x80, 0x17] fun s => (s.setReg 0 0x07).setReg 1 0x05).map (seen 0) = some (0xFE#8, 0x00#8, 0x202#16) := by decide

/-- VA24, VA26: the bit out, and y ignored. -/
theorem test_shr : (stepFrom [0x82, 0x06] (·.setReg 2 0x05)).map (seen 2) = some (0x02#8, 0x01#8, 0x202#16) ∧
    (stepFrom [0x82, 0x56] fun s => (s.setReg 2 0x04).setReg 5 0xFF).map (seen 2) = some (0x02#8, 0x00#8, 0x202#16) := by decide

/-- VA28, VA30. -/
theorem test_shl : (stepFrom [0x82, 0x0E] (·.setReg 2 0x81)).map (seen 2) = some (0x02#8, 0x01#8, 0x202#16) ∧
    (stepFrom [0x8F, 0x0E] (·.setReg 15 0x80)).map (seen 15) = some (0x01#8, 0x01#8, 0x202#16) := by decide

/-! ### Address register, block transfers, random -/

/-- VB1. -/
theorem test_ldI : (stepFrom [0xA1, 0x23] id).map (fun t => (t.i, t.pc)) = some (0x0123#16, 0x202#16) := by decide

/-- VB3, and VB2's untouched flag. -/
theorem test_addI : (stepFrom [0xF3, 0x1E] fun s => ((s.setI 0xFFFF).setReg 3 0x02).setReg 15 0x5A).map
    (fun t => (t.i, t.reg 15, t.pc)) = some (0x0001#16, 0x5A#8, 0x202#16) := by decide

/-- VB4. -/
theorem test_storeBlock : (stepFrom [0xF2, 0x55] fun s => (((s.setI 0x300).setReg 0 1).setReg 1 2).setReg 2 3).map
    (fun t => (t.byteAt 0x300, t.byteAt 0x302, t.byteAt 0x303, t.i, t.pc)) =
    some (0x01#8, 0x03#8, 0x00#8, 0x303#16, 0x202#16) := by decide

/-- VB8. -/
theorem test_storeBlock_end : (stepFrom [0xF2, 0x55] fun s => (((s.setI 0xFFE).setReg 0 1).setReg 1 2).setReg 2 3).map
    (fun t => (t.byteAt 0xFFE, t.byteAt 0xFFF, t.i, t.pc, t.status)) =
    some (0x01#8, 0x02#8, 0xFFE#16, 0x200#16, .faulted (.memoryOutOfRange 0x1000 .write 0x200#16)) := by decide

/-- VB7. -/
theorem test_loadBlock : (stepFrom [0xF2, 0x65] fun s =>
      (((s.setI 0x300).pokeByte 0x300 1).pokeByte 0x301 2).pokeByte 0x302 3).map
    (fun t => (t.reg 0, t.reg 1, t.reg 2, t.reg 3, t.i)) = some (0x01#8, 0x02#8, 0x03#8, 0x00#8, 0x303#16) := by decide

/-- VB9. -/
theorem test_loadBlock_end : (stepFrom [0xF2, 0x65] fun s =>
      (((s.setI 0xFFE).pokeByte 0xFFE 9).pokeByte 0xFFF 8).setReg 2 0x77).map
    (fun t => (t.reg 0, t.reg 1, t.reg 2, t.i, t.status)) =
    some (0x09#8, 0x08#8, 0x77#8, 0xFFE#16, .faulted (.memoryOutOfRange 0x1000 .read 0x200#16)) := by decide

/-- VX3, VX6. -/
theorem test_xorshift64 : xorshift64 0xDEADBEEFCAFEBABE#64 = 0x27DC5C1B2D04284B#64 ∧ xorshift64 0#64 = 0#64 := by decide

/-- VX8, VX12. -/
theorem test_rnd : (stepFrom [0xC0, 0x0F] id).map (fun t => (t.rng, t.reg 0, t.pc)) =
      some (0x40822041#64, 0x01#8, 0x202#16) ∧
    (stepFrom [0xCF, 0xFF] (·.setRng 0xDEADBEEFCAFEBABE)).map (fun t => (t.rng, t.reg 15)) =
      some (0x27DC5C1B2D04284B#64, 0x4B#8) := by decide

/-! ### Display -/

/-- VG1. -/
theorem test_cls : (stepFrom [0x00, 0xE0] fun s => (((s.pokeByte 0xF00 0xFF).pokeByte 0xFFF 0x11).pokeByte 0xEFF 0x22).setReg 15
      0x5A).map
    (fun t => ((t.byteAt 0xF00, t.byteAt 0xFFF, t.byteAt 0xEFF), t.reg 15, t.render, t.pc)) =
    some ((0x00#8, 0x00#8, 0x22#8), 0x5A#8, [.clear, .present], 0x202#16) := by decide +kernel

/-- VG4: collision, with the calls in order. -/
theorem test_drw_collision : (stepFrom [0xD1, 0x21] fun s => ((s.setI 0x300).pokeByte 0x300 0x0F).pokeByte 0xF00 0x01).map
    (fun t => (t.byteAt 0xF00, t.reg 15, t.render, t.pc)) =
    some (0x0E#8, 0x01#8, [.drawPx 4 0, .drawPx 5 0, .drawPx 6 0, .clearPx 7 0, .present], 0x202#16) := by decide

/-- VG10: the bottom right corner, clipped on both sides. -/
theorem test_drw_corner : (stepFrom [0xD1, 0x22] fun s => ((((s.setI 0x300).setReg 1 0x3F).setReg 2 0x1F).pokeByte 0x300
      0xC0).pokeByte 0x301 0xFF).map
    (fun t => (t.byteAt 0xFFF, t.reg 15, t.render, t.pc)) =
    some (0x01#8, 0x00#8, [.drawPx 63 31, .present], 0x202#16) := by decide

/-! ### Reset and load -/

/-- R27, R104. -/
theorem test_reset : State.reset.pc = 0x200#16 ∧ State.reset.sp = 0xF00#16 ∧ State.reset.i = 0#16 ∧ State.reset.rng = 1#64 ∧
    State.reset.status = .running ∧ Memory.wf State.reset.mem = true := by decide

/-- R105: the program's bytes and its length. -/
theorem test_load : (after (boot 1 [0x60, 0x05])).map (fun t => (t.byteAt 0x200, t.byteAt 0x201, t.byteAt 0x202, t.progLen)) =
    some (0x60#8, 0x05#8, 0x00#8, 2) := by decide

/-! ### Witnesses: concrete inputs that meet every hypothesis of the obligation named, at a boundary of each clause -/

/-- What the step of `s` leaves (`s` itself where there is no next state). -/
def next (s : State) : State := (after (step s)).getD s

/-- What an instruction leaves. -/
def result (i : Instr) (s : State) : State := (after (exec i s)).getD s

/-- DRW answers a next state, so `result` is it. -/
theorem exec_drw_result (x y : RegIdx) (n : Nat) (s : State) : exec (.drw x y n) s = .next (result (.drw x y n) s) := by
  obtain ⟨t, h⟩ := Effect.finish_is_next
    (drawRows (s.indexed 0) (s.reg x).toNat (s.reg y).toNat (List.range n) true s) fun t => (t.emit .present).advance 2
  have h' : exec (.drw x y n) s = .next t := h
  rw [result, h']
  rfl

/-- Where the sprite ends inside memory, the draw reads nothing outside. -/
theorem spriteReadable_of {s : State} {n : Nat} (y : RegIdx) (h : s.indexed n ≤ config.memSize) : SpriteReadable s y n := by
  intro r hr
  have := hr.1
  simp only [State.indexed] at *
  omega

theorem witness_DecodeOfEncode : Instr.wellFormed (.drw 15 15 15) = true ∧ Instr.wellFormed (.drw 0 0 0) = true ∧
    Instr.wellFormed (.jp 0xFFF#12) = true := by decide

theorem witness_EncodeOfDecode : decodeWord 0x0000#16 ≠ .ok .cls ∧ decodeWord 0x1000#16 = .ok (.jp 0#12) ∧
    decodeWord 0xDFFF#16 = .ok (.drw 15 15 15) := by decide

/-- One word for each clause, with the rows it selects. -/
theorem witness_DispatchAgreesWithOpcodeMap : decodeWord 0x8FFE#16 = .ok (.shl 15 15) ∧
    (opcodeMap.filter fun r => r.selects 0x8FFE#16).map (·.number) = [18] ∧
    decodeWord 0x8FFF#16 = .error (.unimplemented 0x8FFF#16) ∧ (opcodeMap.filter fun r => r.selects 0x8FFF#16) = [] := by decide

/-- The last two bytes of memory. -/
theorem witness_StepRunsTheDecodedInstruction :
    let s := ((State.reset.setPc 0xFFE).pokeByte 0xFFE 0x6A).pokeByte 0xFFF 0x42
    s.status = .running ∧ s.pc.toNat + 1 < config.memSize ∧
    decodeWord (wordOfBytes (s.byteAt s.pc.toNat) (s.byteAt (s.pc.toNat + 1))) = .ok (.ldImm 10 0x42#8) := by decide

theorem witness_UnimplementedWordFaults :
    let s := loaded [0x51, 0x21]
    s.status = .running ∧ s.pc.toNat + 1 < config.memSize ∧
    0x5121#16 = wordOfBytes (s.byteAt s.pc.toNat) (s.byteAt (s.pc.toNat + 1)) ∧
    (opcodeMap.all fun r => r.selects 0x5121#16 == false) = true := by decide

theorem witness_FetchOutsideMemoryFaults :
    (State.reset.setPc 0x1000).status = .running ∧ config.memSize ≤ (State.reset.setPc 0x1000).pc.toNat ∧
    (State.reset.setPc 0xFFF).status = .running ∧ (State.reset.setPc 0xFFF).pc.toNat + 1 = config.memSize := by decide

theorem witness_StepExistsExactlyWhileRunning :
    let s := loaded [0x60, 0x05]
    s.status = .running ∧ fetch s = .ok 0x6005#16 ∧ decodeWord 0x6005#16 = .ok (.ldImm 0 0x05#8) := by decide

theorem witness_FetchWordIsRun : (State.reset.setPc 0xFFE).status = .running ∧
    (State.reset.setPc 0xFFE).pc.toNat + 1 < config.memSize ∧ decodeTableWord 16 0xF265 = some (.loadBlock 2) := by decide

/-- The words of E1, and the highest address whose successor the statement covers. -/
theorem witness_LoadAndAddImmediate : (0x6005#16).toNat = 0x6000 + (0 : RegIdx).val * 256 + (0x05#8).toNat ∧
    (0x7003#16).toNat = 0x7000 + (0 : RegIdx).val * 256 + (0x03#8).toNat ∧
    (State.reset.setPc 0xFFFD).pc.toNat + 2 < 2 ^ 16 := by decide

/-- The flag's clauses at their boundaries: sums 255 and 256, operands equal and one apart. -/
theorem witness_AddAndSubtractWithFlag : (0 : RegIdx) ≠ 15 ∧
    ¬ 256 ≤ ((State.reset.setReg 0 0x80).reg 0).toNat + 0x7F ∧ 256 ≤ ((State.reset.setReg 0 0x80).reg 0).toNat + 0x80 ∧
    ¬ (7#8).toNat < (7#8).toNat ∧ (6#8).toNat < (7#8).toNat := by decide

theorem witness_ShiftsWithFlag : (14 : RegIdx) ≠ 15 := by decide

/-- Both clauses: a jump to itself and one elsewhere. -/
theorem witness_JumpOrHalt : State.reset.pc.toNat = (0x200#12).toNat ∧ State.reset.pc.toNat ≠ (0x202#12).toNat := by decide

/-- One slot left, and the highest SP the statement covers. -/
theorem witness_CallPushesReturnAddress :
    config.stackLimit + 2 ≤ (State.reset.setSp 0xEA2).sp.toNat ∧ (State.reset.setSp 0xEA2).sp.toNat ≤ config.memSize ∧
    config.stackLimit + 2 ≤ (State.reset.setSp 0x1000).sp.toNat ∧ (State.reset.setSp 0x1000).sp.toNat ≤ config.memSize := by decide

theorem witness_ReturnPopsAddress : (State.reset.setSp 0xEFE).sp.toNat + 2 ≤ config.stackBase := by decide

theorem witness_StackOverflowAndUnderflowFault : (State.reset.setSp 0xEA1).sp.toNat < config.stackLimit + 2 ∧
    config.stackBase < (State.reset.setSp 0xEFF).sp.toNat + 2 ∧ config.stackBase < State.reset.sp.toNat + 2 := by decide

/-- The call of E7, returned from at once. -/
theorem witness_CallThenReturn :
    let s := State.reset
    let t := result (.call 0x206#12) s
    config.stackLimit + 2 ≤ s.sp.toNat ∧ s.sp.toNat ≤ config.stackBase ∧ exec (.call 0x206#12) s = .next t ∧
    (t.setReg 0 1).sp = t.sp ∧ (t.setReg 0 1).byteAt s.pushAddr = t.byteAt s.pushAddr ∧
    (t.setReg 0 1).byteAt (s.pushAddr + 1) = t.byteAt (s.pushAddr + 1) :=
  ⟨by decide, by decide, rfl, rfl, rfl, rfl⟩

/-- A block of 16 that ends at the last byte, and one of 1. -/
theorem witness_StoreBlockResult : (State.reset.setI 0xFF0).indexed (15 : RegIdx).val < config.memSize ∧
    (State.reset.setI 0xFFF).indexed (0 : RegIdx).val < config.memSize := by decide

theorem witness_LoadBlockResult : (State.reset.setI 0xFF0).indexed (15 : RegIdx).val < config.memSize ∧
    (State.reset.setI 0xFFF).indexed (0 : RegIdx).val < config.memSize := by decide

/-- One byte too many, with registers before the end; and I itself outside. -/
theorem witness_BlockTransferPastTheEndFaults :
    config.memSize ≤ (State.reset.setI 0xFF1).indexed (15 : RegIdx).val ∧
    (State.reset.setI 0xFF1).indexed (14 : RegIdx).val < config.memSize ∧
    config.memSize ≤ (State.reset.setI 0xFFFF).indexed (0 : RegIdx).val := by decide

theorem witness_BlockStoreThenLoad :
    let s := (State.reset.setI 0xFFE).setReg 1 0x5A
    let t := result (.storeBlock 1) s
    s.indexed (1 : RegIdx).val < config.memSize ∧ exec (.storeBlock 1) s = .next t ∧ (t.setI s.i).i = s.i ∧
    ∀ r : RegIdx, r ≤ 1 → (t.setI s.i).byteAt (s.indexed r.val) = t.byteAt (s.indexed r.val) :=
  ⟨by decide, rfl, rfl, fun _ _ => rfl⟩

theorem witness_RandomByte : 0x2001#64 = State.reset.rng ^^^ (State.reset.rng <<< 13) ∧
    0x2041#64 = 0x2001#64 ^^^ (0x2001#64 >>> 7) := by decide

/-- The corner pixels, and two pixels of one byte. -/
theorem witness_PixelsHaveTheirOwnBits : OnScreen 63 31 ∧ OnScreen 0 0 ∧ fbByte 63 31 = fbByte 56 31 ∧ fbMask 63 ≠ fbMask 56 ∧
    fbMask 63 = fbMask 7 := ⟨by unfold OnScreen; decide, by unfold OnScreen; decide, rfl, by decide, rfl⟩

/-- No rows; and a start row at the bottom edge. -/
theorem witness_DrawOfNoRow : SpriteReadable State.reset 2 0 ∧
    (SpriteReadable (State.reset.setReg 2 32) 2 15 ∧ config.screenH ≤ ((State.reset.setReg 2 32).reg 2).toNat) :=
  ⟨spriteReadable_of 2 (by decide), spriteReadable_of 2 (by decide), by decide⟩

theorem witness_DrawCompletes : SpriteReadable (State.reset.setI 0xFF1) 2 15 := spriteReadable_of 2 (by decide)

/-- A row on the last line of the screen, with a hit and none; and a row past it. -/
theorem witness_DrawOneMoreRow :
    let s := ((State.reset.setI 0x300).setReg 2 31).pokeByte 0x300 0x80
    SpriteReadable s 2 2 ∧ (s.reg 2).toNat + 0 < config.screenH ∧ config.screenH ≤ (s.reg 2).toNat + 1 ∧
    (decide (0 < 8 ∧ (s.reg 1).toNat + 0 < config.screenW) && (s.byteAt (s.indexed 0)).getLsbD (7 - 0)) = true ∧
    (decide (1 < 8 ∧ (s.reg 1).toNat + 1 < config.screenW) && (s.byteAt (s.indexed 0)).getLsbD (7 - 1)) = false :=
  ⟨spriteReadable_of 2 (by decide), by decide, by decide, by decide, by decide⟩

/-- A sprite at 0x300 drawn into the bottom right corner, its one processed row unchanged; a covered lit pixel, and a start row
past the bottom. -/
theorem witness_DrawXorsThePicture :
    let s := (((State.reset.setI 0x300).setReg 1 63).setReg 2 31).pokeByte 0x300 0x80
    let t := result (.drw 1 2 15) s
    SpriteReadable s 2 15 ∧ exec (.drw 1 2 15) s = .next t ∧
    (∀ r, r < 15 → (s.reg 2).toNat + r < config.screenH → t.byteAt (s.indexed r) = s.byteAt (s.indexed r)) ∧
    DrawCovers (s.reg 1).toNat (s.reg 2).toNat 15 63 31 ∧
    (s.byteAt (s.indexed (31 - (s.reg 2).toNat))).getLsbD (7 - (63 - (s.reg 1).toNat)) = true ∧
    config.screenH ≤ ((s.setReg 2 32).reg 2).toNat := by
  refine ⟨spriteReadable_of 2 (by decide), exec_drw_result 1 2 15 _, ?_, by unfold DrawCovers OnScreen; decide, by decide,
    by decide⟩
  intro r _ h
  have h' : 31 + r < 32 := h
  obtain rfl : r = 0 := by omega
  decide

/-- A form the disjoint sprites leave out: the sprite is the byte drawn to, all its bits 0, so the draw does not change it. -/
theorem witness_DrawXorsThePicture_inPlace :
    let s := (State.reset.setI 0xF00).setReg 3 5
    let t := result (.drw 1 2 1) s
    SpriteReadable s 2 1 ∧ exec (.drw 1 2 1) s = .next t ∧ (Instr.drw 1 2 1).storesTo s (s.indexed 0) ∧
    (∀ r, r < 1 → (s.reg 2).toNat + r < config.screenH → t.byteAt (s.indexed r) = s.byteAt (s.indexed r)) := by
  refine ⟨spriteReadable_of 2 (by decide), exec_drw_result 1 2 1 _, ⟨0, 0, by unfold DrawCovers OnScreen; decide, rfl⟩, ?_⟩
  intro r h _
  obtain rfl : r = 0 := by omega
  decide

/-- Row 0 read outside though no row is on the screen (VG14); row 1 read outside at y = 32 (VG13). -/
theorem witness_DrawPastTheEndFaults :
    (let s := (State.reset.setI 0x1000).setReg 2 32
     ReadsRow (s.reg 2).toNat 1 0 ∧ config.memSize ≤ s.indexed 0 ∧ SpriteReadable s 2 0) ∧
    (let s := (State.reset.setI 0xFFF).setReg 2 31
     ReadsRow (s.reg 2).toNat 2 1 ∧ config.memSize ≤ s.indexed 1 ∧ SpriteReadable s 2 1) :=
  ⟨⟨by unfold ReadsRow; decide, by decide, spriteReadable_of 2 (by decide)⟩,
   ⟨by unfold ReadsRow; decide, by decide, spriteReadable_of 2 (by decide)⟩⟩

/-- The draw of VG4, drawn again. -/
theorem witness_DrawTwiceRestores :
    let s := ((State.reset.setI 0x300).pokeByte 0x300 0x0F).pokeByte 0xF00 0x01
    let t := result (.drw 1 2 1) s
    SpriteReadable s 2 1 ∧ exec (.drw 1 2 1) s = .next t ∧
    (∀ r, r < 1 → (s.reg 2).toNat + r < config.screenH → t.byteAt (s.indexed r) = s.byteAt (s.indexed r)) ∧
    t.mem = t.mem ∧ t.i = s.i ∧ t.reg 1 = s.reg 1 ∧ t.reg 2 = s.reg 2 ∧ (s.reg 2).toNat < config.screenH := by
  refine ⟨spriteReadable_of 2 (by decide), exec_drw_result 1 2 1 _, ?_, rfl, by decide, by decide, by decide, by decide⟩
  intro r h _
  obtain rfl : r = 0 := by omega
  decide

/-- A load block that raises part-way, for the frames over every path. -/
theorem witness_GeneralRegisterFrame : exec (.loadBlock 2) (State.reset.setI 0xFFE) =
    .next (result (.loadBlock 2) (State.reset.setI 0xFFE)) := rfl

theorem witness_MemoryFrame : exec (.storeBlock 2) (State.reset.setI 0xFFE) =
    .next (result (.storeBlock 2) (State.reset.setI 0xFFE)) := rfl

/-- One instruction for each clause: none writes what the clause says stays. -/
theorem witness_SpecialRegisterFrame : exec (.call 0x300#12) State.reset = .next (result (.call 0x300#12) State.reset) ∧
    Instr.writesI (.call 0x300#12) = false ∧ Instr.writesRng (.call 0x300#12) = false ∧
    exec (.ldI 0x300#12) State.reset = .next (result (.ldI 0x300#12) State.reset) ∧
    Instr.writesSp (.ldI 0x300#12) = false := ⟨rfl, rfl, rfl, rfl, rfl⟩

theorem witness_RenderOutputOnlyGrows : exec (.ldImm 0 1#8) State.reset = .next (result (.ldImm 0 1#8) State.reset) ∧
    Instr.rendersCalls (.ldImm 0 1#8) = false ∧
    exec (.drw 0 0 1) State.reset = .next (result (.drw 0 0 1) State.reset) := ⟨rfl, rfl, exec_drw_result 0 0 1 _⟩

/-- A jump that halts, a jump that goes on, a return that faults and one that goes on. -/
theorem witness_ProgramCounterChanges : State.reset.status = .running ∧
    exec (.jp 0x200#12) State.reset = .next (result (.jp 0x200#12) State.reset) ∧
    exec (.jp 0x202#12) State.reset = .next (result (.jp 0x202#12) State.reset) ∧
    exec .ret State.reset = .next (result .ret State.reset) ∧
    exec .ret (State.reset.setSp 0xEFE) = .next (result .ret (State.reset.setSp 0xEFE)) := ⟨rfl, rfl, rfl, rfl, rfl⟩

theorem witness_EveryInstructionIsAvailable : 0xFFF < config.memSize := by decide

/-- The halt of E2, and a halted engine that reaches a state. -/
theorem witness_SelfJumpHaltsForGood : State.reset.pc.toNat = (0x200#12).toNat ∧
    step (loaded [0x12, 0x00]) = .next (next (loaded [0x12, 0x00])) ∧ (next (loaded [0x12, 0x00])).status = .halted ∧
    Reaches (State.reset.setStatus .halted) (State.reset.setStatus .halted) := ⟨rfl, rfl, rfl, .refl _⟩

theorem witness_FaultKeepsProgramCounter : step (loaded [0x00, 0xEE]) = .next (next (loaded [0x00, 0xEE])) ∧
    (next (loaded [0x00, 0xEE])).status = .faulted (.stackUnderflow 0xF00#16 0x200#16) := ⟨rfl, rfl⟩

/-- A running state for every clause that is not False: overflow, underflow, write (CALL beyond memory; store block), read
(DRW; load block). -/
theorem witness_WhichInstructionRaisesWhat :
    (result (.call 0#12) (State.reset.setSp 0xEA1)).status = .faulted (.stackOverflow 0xEA1#16 0x200#16) ∧
    (result .ret State.reset).status = .faulted (.stackUnderflow 0xF00#16 0x200#16) ∧
    (result (.call 0#12) (State.reset.setSp 0x1001)).status = .faulted (.memoryOutOfRange 0x1000 .write 0x200#16) ∧
    (result (.storeBlock 0) (State.reset.setI 0x1000)).status = .faulted (.memoryOutOfRange 0x1000 .write 0x200#16) ∧
    (result (.drw 0 0 1) (State.reset.setI 0x1000)).status = .faulted (.memoryOutOfRange 0x1000 .read 0x200#16) ∧
    (result (.loadBlock 0) (State.reset.setI 0x1000)).status = .faulted (.memoryOutOfRange 0x1000 .read 0x200#16) := by decide

theorem witness_RenderOutputIsNeverRead : step (loaded [0x70, 0x01]) = .next (next (loaded [0x70, 0x01])) := rfl

theorem witness_ProgramLengthIsNeverRead : step (loaded [0x70, 0x01]) = .next (next (loaded [0x70, 0x01])) := rfl

theorem witness_OnlyRandomUsesTheGenerator : (∀ x nn, Instr.addI 3 ≠ .rnd x nn) ∧
    exec (.addI 3) State.reset = .next (result (.addI 3) State.reset) := ⟨nofun, rfl⟩

/-- A running state with the invariant, one slot left on its stack, that the step halts. -/
theorem witness_EveryStepKeepsTheInvariant :
    let s := (loaded [0x12, 0x00]).setSp 0xEA2
    Inv s ∧ step s = .next (s.setStatus .halted) := by
  refine ⟨⟨by decide, ?_, ?_, by decide, ?_, ?_⟩, rfl⟩
  · unfold StackLegal; decide
  · intro c hc; cases hc
  · intro h; cases h
  · intro f h; cases h

theorem witness_InvariantAfterBoot : Loaded (loaded [0x60, 0x05]) := ⟨1, [0x60, 0x05], rfl⟩

/-- A loaded state and one it reaches, the halt of E2. -/
theorem witness_EveryReachableStateIsLegal : Loaded (loaded [0x12, 0x00]) ∧
    Reaches (loaded [0x12, 0x00]) ((loaded [0x12, 0x00]).setStatus .halted) :=
  ⟨⟨1, [0x12, 0x00], rfl⟩, .step _ _ _ (.refl _) rfl⟩

/-- The longest program that fits, and one byte more. -/
theorem witness_BootLoadsTheProgram : (List.replicate 3584 0x60#8).length ≤ config.memSize - config.progBase ∧
    config.memSize - config.progBase < (List.replicate 3585 0x60#8).length := by
  rw [List.length_replicate, List.length_replicate]; decide

theorem witness_ByteAccess : 0xFFF < config.memSize ∧ 0 < config.memSize ∧ config.memSize ≤ 0x1000 := by decide

/-- Two ways to the same memory. -/
theorem witness_CanonicalMemoriesWithEqualReadsAreEqual :
    let m := Memory.store (Memory.store [] 0x300 0x12#8) 0x200 0x34#8
    let m' := Memory.store (Memory.store (Memory.store [] 0x200 0x34#8) 0x300 0x12#8) 0x400 0x00#8
    Memory.wf m = true ∧ Memory.wf m' = true ∧ ∀ a, Memory.lookup m a = Memory.lookup m' a :=
  ⟨by decide, by decide, fun _ => rfl⟩

end Sys2Proof.Tests
end

section
/-! What no instruction reads: a relation on states that differ only in fields that no rule reads is kept by every operation
and so by every instruction and every step. Stated over the relation, and used below for the render output
(spec/10_state.md R24) and for RNG outside RND (R19). -/

namespace Sys2Proof.Machine

/-- Related states agree in all that an instruction other than RND reads, and each update that such an instruction makes,
made to both, gives related states. -/
structure Unobserved (R : State → State → Prop) : Prop where
  v : ∀ {s t}, R s t → t.v = s.v
  i : ∀ {s t}, R s t → t.i = s.i
  pc : ∀ {s t}, R s t → t.pc = s.pc
  sp : ∀ {s t}, R s t → t.sp = s.sp
  mem : ∀ {s t}, R s t → t.mem = s.mem
  status : ∀ {s t}, R s t → t.status = s.status
  setReg : ∀ {s t}, R s t → ∀ r b, R (s.setReg r b) (t.setReg r b)
  setI : ∀ {s t}, R s t → ∀ w, R (s.setI w) (t.setI w)
  setPc : ∀ {s t}, R s t → ∀ w, R (s.setPc w) (t.setPc w)
  setSp : ∀ {s t}, R s t → ∀ w, R (s.setSp w) (t.setSp w)
  setMem : ∀ {s t}, R s t → ∀ m, R (s.setMem m) (t.setMem m)
  setStatus : ∀ {s t}, R s t → ∀ x, R (s.setStatus x) (t.setStatus x)
  emit : ∀ {s t}, R s t → ∀ c, R (s.emit c) (t.emit c)

/-- Two effects that end the same way, in related states. -/
inductive Effect.Alike (R : State → State → Prop) : Effect → Effect → Prop
  | done {s t : State} : R s t → Effect.Alike R (.done s) (.done t)
  | raised (f : EngineFault) {s t : State} : R s t → Effect.Alike R (.raised f s) (.raised f t)

/-- Two outcomes that are both next states, related ones. -/
def NextAlike (R : State → State → Prop) (o o' : Outcome) : Prop := ∃ s t, o = .next s ∧ o' = .next t ∧ R s t

variable {R : State → State → Prop} {s t : State}

theorem NextAlike.next (hst : R s t) : NextAlike R (.next s) (.next t) := ⟨s, t, rfl, rfl, hst⟩

/-- What answers a next state on one side answers a related one on the other. -/
theorem NextAlike.next_right {u : State} {o : Outcome} (h : NextAlike R (.next u) o) : ∃ u', o = .next u' ∧ R u u' := by
  obtain ⟨_, u', ⟨⟩, ho, hu⟩ := h
  exact ⟨u', ho, hu⟩

theorem Effect.Alike.andThen {e e' : Effect} {k k' : State → Effect} (he : Effect.Alike R e e')
    (hk : ∀ {s t}, R s t → Effect.Alike R (k s) (k' t)) : Effect.Alike R (e.andThen k) (e'.andThen k') := by
  cases he with
  | done hst => exact hk hst
  | raised f hst => exact .raised f hst

namespace Unobserved

variable (h : Unobserved R)
include h

/-! ### The shared operations -/

theorem reg_eq (hst : R s t) : t.reg = s.reg := by
  funext r
  simp only [State.reg, h.v hst]

theorem byteAt_eq (hst : R s t) (a : Nat) : t.byteAt a = s.byteAt a := by
  simp only [State.byteAt, h.mem hst]

theorem readWord_eq (hst : R s t) (a : Nat) (k : Access) : readWord a k t = readWord a k s :=
  readWord_congr a k (h.byteAt_eq hst a) (h.byteAt_eq hst (a + 1)) (h.pc hst)

theorem pokeByte (hst : R s t) (a : Nat) (b : Byte) : R (s.pokeByte a b) (t.pokeByte a b) := by
  rw [State.pokeByte, State.pokeByte, h.mem hst]
  exact h.setMem hst _

theorem advance (hst : R s t) (adv : Word) : R (s.advance adv) (t.advance adv) := by
  rw [State.advance, State.advance, h.pc hst]
  exact h.setPc hst _

theorem raise_alike (hst : R s t) (f : EngineFault) : NextAlike R (raise f s) (raise f t) :=
  .next (h.setStatus hst _)

theorem complete_alike (hst : R s t) : NextAlike R (complete s) (complete t) := .next (h.advance hst 2)

theorem finish_alike {e e' : Effect} {k k' : State → State} (he : Effect.Alike R e e')
    (hk : ∀ {s t}, R s t → R (k s) (k' t)) : NextAlike R (e.finish k) (e'.finish k') := by
  cases he with
  | done hst => exact .next (hk hst)
  | raised f hst => exact h.raise_alike hst f

theorem writeByte_alike (hst : R s t) (a : Nat) (b : Byte) : Effect.Alike R (writeByte a b s) (writeByte a b t) := by
  by_cases ha : a < config.memSize
  · rw [writeByte_inside b s ha, writeByte_inside b t ha]
    exact .done (h.pokeByte hst a b)
  · rw [writeByte_outside b s (by omega), writeByte_outside b t (by omega), h.pc hst]
    exact .raised _ hst

theorem withByte_alike (hst : R s t) (a : Nat) {k k' : Byte → Effect} (hk : ∀ b, Effect.Alike R (k b) (k' b)) :
    Effect.Alike R (withByte a s k) (withByte a t k') := by
  by_cases ha : a < config.memSize
  · rw [withByte_inside s k ha, withByte_inside t k' ha, h.byteAt_eq hst a]
    exact hk _
  · rw [withByte_outside s k (by omega), withByte_outside t k' (by omega), h.pc hst]
    exact .raised _ hst

theorem storeBytes_alike (bs : List Byte) : ∀ (a : Nat) {s t : State}, R s t →
    Effect.Alike R (storeBytes a bs s) (storeBytes a bs t) := by
  induction bs with
  | nil => exact fun _ _ _ hst => .done hst
  | cons b bs ih => exact fun a _ _ hst => (h.writeByte_alike hst a b).andThen (ih (a + 1))

theorem loadRegs_alike (rs : List RegIdx) : ∀ (a : Nat) {s t : State}, R s t →
    Effect.Alike R (loadRegs a rs s) (loadRegs a rs t) := by
  induction rs with
  | nil => exact fun _ _ _ hst => .done hst
  | cons r rs ih => exact fun a _ _ hst => h.withByte_alike hst a fun b => ih (a + 1) (h.setReg hst r b)

/-! ### Drawing -/

theorem setRegIf (hst : R s t) (p : Bool) (r : RegIdx) (b : Byte) :
    R (if p then s.setReg r b else s) (if p then t.setReg r b else t) := by
  cases p
  · exact hst
  · exact h.setReg hst r b

theorem drawPixel_alike (hst : R s t) (px py : Nat) : Effect.Alike R (drawPixel px py s) (drawPixel px py t) :=
  h.withByte_alike hst _ fun _ => (h.writeByte_alike (h.setRegIf hst _ vf 1#8) _ _).andThen fun hst => .done (h.emit hst _)

theorem drawCols_alike (sprite : Byte) (vx py : Nat) (cols : List Nat) : ∀ {s t : State}, R s t →
    Effect.Alike R (drawCols sprite vx py cols s) (drawCols sprite vx py cols t) := by
  induction cols with
  | nil => exact fun hst => .done hst
  | cons col cols ih =>
    intro s t hst
    simp only [drawCols]
    split
    · exact .done hst
    · split
      · exact (h.drawPixel_alike hst _ _).andThen ih
      · exact ih hst

theorem drawRows_alike (base vx vy : Nat) (rows : List Nat) : ∀ (first : Bool) {s t : State}, R s t →
    Effect.Alike R (drawRows base vx vy rows first s) (drawRows base vx vy rows first t) := by
  induction rows with
  | nil => exact fun _ _ _ hst => .done hst
  | cons row rows ih =>
    intro first s t hst
    refine h.withByte_alike hst _ fun sprite => ?_
    split
    · exact .done hst
    · exact (h.drawCols_alike sprite vx _ _ (h.setRegIf hst first vf 0#8)).andThen (ih false)

/-! ### Instructions -/

/-- A register write of a value computed from the registers. -/
theorem writeReg_alike (hst : R s t) (x : RegIdx) (value : (RegIdx → Byte) → Byte) :
    NextAlike R (writeReg x (value s.reg) s) (writeReg x (value t.reg) t) := by
  rw [h.reg_eq hst]
  exact h.complete_alike (h.setReg hst x _)

/-- A register write and a flag, both computed from the registers. -/
theorem writeRegFlag_alike (hst : R s t) (x : RegIdx) (value flag : (RegIdx → Byte) → Byte) :
    NextAlike R (writeRegFlag x (value s.reg) (flag s.reg) s) (writeRegFlag x (value t.reg) (flag t.reg) t) := by
  rw [h.reg_eq hst]
  exact h.complete_alike (h.setReg (h.setReg hst x _) vf _)

/-- A skip on a condition over the registers. -/
theorem skipIf_alike (hst : R s t) (taken : (RegIdx → Byte) → Bool) :
    NextAlike R (skipIf (taken s.reg) s) (skipIf (taken t.reg) t) := by
  rw [h.reg_eq hst]
  exact .next (h.advance hst _)

theorem advanceBlock (hst : R s t) (x : RegIdx) : R (advanceBlock x s) (advanceBlock x t) := by
  unfold Machine.advanceBlock
  rw [h.i hst]
  split
  · exact h.advance (h.setI hst _) 2
  · exact h.advance hst 2

theorem execRet_alike (hst : R s t) : NextAlike R (execRet s) (execRet t) := by
  simp only [execRet, State.stackTop, h.sp hst, h.pc hst, h.readWord_eq hst]
  split
  · exact h.raise_alike hst _
  · split
    · exact h.raise_alike hst _
    · exact .next (h.setSp (h.setPc hst _) _)

theorem execJp_alike (hst : R s t) (nnn : Addr12) : NextAlike R (execJp nnn s) (execJp nnn t) := by
  simp only [execJp, h.pc hst]
  split
  · exact .next (h.setStatus hst _)
  · exact .next (h.setPc hst _)

theorem execCall_alike (hst : R s t) (nnn : Addr12) : NextAlike R (execCall nnn s) (execCall nnn t) := by
  simp only [execCall, State.pushAddr, h.sp hst, h.pc hst]
  split
  · exact h.raise_alike hst _
  · exact h.finish_alike (h.storeBytes_alike _ _ hst) fun hst => h.setPc (h.setSp hst _) _

theorem execCls_alike (hst : R s t) : NextAlike R (execCls s) (execCls t) :=
  h.finish_alike (h.storeBytes_alike _ _ hst) fun hst => h.advance (h.emit (h.emit hst _) _) 2

theorem execDrw_alike (hst : R s t) (x y : RegIdx) (n : Nat) : NextAlike R (execDrw x y n s) (execDrw x y n t) := by
  simp only [execDrw, State.indexed, h.i hst, h.reg_eq hst]
  exact h.finish_alike (h.drawRows_alike _ _ _ _ true hst) fun hst => h.advance (h.emit hst _) 2

theorem execAddI_alike (hst : R s t) (x : RegIdx) : NextAlike R (execAddI x s) (execAddI x t) := by
  simp only [execAddI, h.i hst, h.reg_eq hst]
  exact h.complete_alike (h.setI hst _)

theorem execStoreBlock_alike (hst : R s t) (x : RegIdx) : NextAlike R (execStoreBlock x s) (execStoreBlock x t) := by
  simp only [execStoreBlock, State.indexed, State.blockValues, h.i hst, h.reg_eq hst]
  exact h.finish_alike (h.storeBytes_alike _ _ hst) fun hst => h.advanceBlock hst x

theorem execLoadBlock_alike (hst : R s t) (x : RegIdx) : NextAlike R (execLoadBlock x s) (execLoadBlock x t) := by
  simp only [execLoadBlock, State.indexed, h.i hst]
  exact h.finish_alike (h.loadRegs_alike _ _ hst) fun hst => h.advanceBlock hst x

/-- Any instruction but RND answers related states from related states. -/
theorem exec_alike_of_ne_rnd (hst : R s t) (i : Instr) (hi : ∀ x nn, i ≠ .rnd x nn) :
    NextAlike R (exec i s) (exec i t) := by
  cases i with
  | cls => exact h.execCls_alike hst
  | ret => exact h.execRet_alike hst
  | jp nnn => exact h.execJp_alike hst nnn
  | call nnn => exact h.execCall_alike hst nnn
  | seImm x nn => exact h.skipIf_alike hst fun v => v x == nn
  | sneImm x nn => exact h.skipIf_alike hst fun v => v x != nn
  | seReg x y => exact h.skipIf_alike hst fun v => v x == v y
  | ldImm x nn => exact h.writeReg_alike hst x fun _ => nn
  | addImm x nn => exact h.writeReg_alike hst x fun v => v x + nn
  | ldReg x y => exact h.writeReg_alike hst x fun v => v y
  | orReg x y => exact h.writeReg_alike hst x fun v => v x ||| v y
  | andReg x y => exact h.writeReg_alike hst x fun v => v x &&& v y
  | xorReg x y => exact h.writeReg_alike hst x fun v => v x ^^^ v y
  | addReg x y => exact h.writeRegFlag_alike hst x (fun v => v x + v y) fun v => carryFlag (v x) (v y)
  | subReg x y => exact h.writeRegFlag_alike hst x (fun v => v x - v y) fun v => notBorrowFlag (v x) (v y)
  | shr x y => exact h.writeRegFlag_alike hst x (fun v => v x >>> 1) fun v => shiftOutRight (v x)
  | subnReg x y => exact h.writeRegFlag_alike hst x (fun v => v y - v x) fun v => notBorrowFlag (v y) (v x)
  | shl x y => exact h.writeRegFlag_alike hst x (fun v => v x <<< 1) fun v => shiftOutLeft (v x)
  | ldI nnn => exact h.complete_alike (h.setI hst _)
  | rnd x nn => exact absurd rfl (hi x nn)
  | drw x y n => exact h.execDrw_alike hst x y n
  | addI x => exact h.execAddI_alike hst x
  | storeBlock x => exact h.execStoreBlock_alike hst x
  | loadBlock x => exact h.execLoadBlock_alike hst x

end Unobserved

/-! ### Every instruction, and the step -/

/-- The same of every instruction, RND included: related states agree in RNG too, and stay related when RND writes it. -/
structure UnobservedByAll (R : State → State → Prop) : Prop extends Unobserved R where
  rng : ∀ {s t}, R s t → t.rng = s.rng
  setRng : ∀ {s t}, R s t → ∀ d, R (s.setRng d) (t.setRng d)

namespace UnobservedByAll

variable (h : UnobservedByAll R)
include h

theorem execRnd_alike (hst : R s t) (x : RegIdx) (nn : Byte) : NextAlike R (execRnd x nn s) (execRnd x nn t) := by
  simp only [execRnd, h.rng hst]
  exact h.complete_alike (h.setReg (h.setRng hst _) x _)

theorem exec_alike (hst : R s t) (i : Instr) : NextAlike R (exec i s) (exec i t) := by
  by_cases hi : ∃ x nn, i = .rnd x nn
  · obtain ⟨x, nn, rfl⟩ := hi
    exact h.execRnd_alike hst x nn
  · exact h.exec_alike_of_ne_rnd hst i fun x nn e => hi ⟨x, nn, e⟩

/-- A step to a next state is matched by a step from any related state. -/
theorem step_alike (hst : R s t) {u : State} (hu : step s = .next u) : ∃ u', step t = .next u' ∧ R u u' := by
  obtain ⟨hrun, hcase⟩ := step_cases hu
  have hrun' : t.status = .running := (h.status hst).trans hrun
  have hfetch : fetch t = fetch s := by rw [fetch, fetch, h.pc hst, h.readWord_eq hst]
  obtain ⟨f, hf, rfl⟩ | ⟨w, e, hf, hd, rfl⟩ | ⟨w, i, hf, hd, he⟩ := hcase
  · refine ⟨t.setStatus (.faulted f), ?_, h.setStatus hst _⟩
    simp only [step, hrun', hfetch, hf, raise]
  · refine ⟨t.setStatus (.faulted (.unimplementedInstruction w s.pc)), ?_, h.setStatus hst _⟩
    simp only [step, hrun', hfetch, hf, hd, raise, h.pc hst]
  · have hexec := h.exec_alike hst i
    rw [he] at hexec
    simpa only [step, hrun', hfetch, hf, hd] using hexec.next_right

end UnobservedByAll

/-! ### The render output (R24) -/

/-- `t` is `s` with the calls `calls` in place of the first calls `base` of its render output. -/
def RenderRebased (base calls : List RenderCall) (s t : State) : Prop :=
  ∃ more, s.render = base ++ more ∧ t = { s with render := calls ++ more }

theorem renderRebased_unobserved (base calls : List RenderCall) : UnobservedByAll (RenderRebased base calls) where
  v := by rintro s _ ⟨_, _, rfl⟩; rfl
  i := by rintro s _ ⟨_, _, rfl⟩; rfl
  pc := by rintro s _ ⟨_, _, rfl⟩; rfl
  sp := by rintro s _ ⟨_, _, rfl⟩; rfl
  mem := by rintro s _ ⟨_, _, rfl⟩; rfl
  status := by rintro s _ ⟨_, _, rfl⟩; rfl
  setReg := by rintro s _ ⟨more, hs, rfl⟩ r b; exact ⟨more, hs, rfl⟩
  setI := by rintro s _ ⟨more, hs, rfl⟩ w; exact ⟨more, hs, rfl⟩
  setPc := by rintro s _ ⟨more, hs, rfl⟩ w; exact ⟨more, hs, rfl⟩
  setSp := by rintro s _ ⟨more, hs, rfl⟩ w; exact ⟨more, hs, rfl⟩
  setMem := by rintro s _ ⟨more, hs, rfl⟩ m; exact ⟨more, hs, rfl⟩
  setStatus := by rintro s _ ⟨more, hs, rfl⟩ x; exact ⟨more, hs, rfl⟩
  rng := by rintro s _ ⟨_, _, rfl⟩; rfl
  setRng := by rintro s _ ⟨more, hs, rfl⟩ d; exact ⟨more, hs, rfl⟩
  emit := by
    rintro s _ ⟨more, hs, rfl⟩ c
    exact ⟨more ++ [c], by simp [State.emit, hs], by simp [State.emit]⟩

/-! ### RNG outside RND (R19) -/

/-- `s` holds `d` in RNG, and `t` is `s` with `d'` there. -/
def RngReplaced (d d' : DWord) (s t : State) : Prop := s.rng = d ∧ t = { s with rng := d' }

theorem rngReplaced_unobserved (d d' : DWord) : Unobserved (RngReplaced d d') where
  v := by rintro s _ ⟨_, rfl⟩; rfl
  i := by rintro s _ ⟨_, rfl⟩; rfl
  pc := by rintro s _ ⟨_, rfl⟩; rfl
  sp := by rintro s _ ⟨_, rfl⟩; rfl
  mem := by rintro s _ ⟨_, rfl⟩; rfl
  status := by rintro s _ ⟨_, rfl⟩; rfl
  setReg := by rintro s _ ⟨hs, rfl⟩ r b; exact ⟨hs, rfl⟩
  setI := by rintro s _ ⟨hs, rfl⟩ w; exact ⟨hs, rfl⟩
  setPc := by rintro s _ ⟨hs, rfl⟩ w; exact ⟨hs, rfl⟩
  setSp := by rintro s _ ⟨hs, rfl⟩ w; exact ⟨hs, rfl⟩
  setMem := by rintro s _ ⟨hs, rfl⟩ m; exact ⟨hs, rfl⟩
  setStatus := by rintro s _ ⟨hs, rfl⟩ x; exact ⟨hs, rfl⟩
  emit := by rintro s _ ⟨hs, rfl⟩ c; exact ⟨hs, rfl⟩

end Sys2Proof.Machine
end

section
/-! The statements about fields that the instructions do not read. -/

namespace Sys2Proof.Proofs

open Sys2Proof Sys2Proof.Machine

/-- Settles O45: every step keeps the relation "the same but for the calls made before". -/
theorem renderOutputIsNeverRead : Obligations.RenderOutputIsNeverRead := by
  intro s t calls hstep
  have hstart : RenderRebased s.render calls s { s with render := calls } := ⟨[], by simp, by simp⟩
  obtain ⟨_, hstep', more, hmore, rfl⟩ := (renderRebased_unobserved s.render calls).step_alike hstart hstep
  exact ⟨more, hmore, hstep'⟩

/-- Settles O47: every instruction but RND keeps the relation "the same but for RNG". -/
theorem onlyRandomUsesTheGenerator : Obligations.OnlyRandomUsesTheGenerator := by
  refine ⟨fun _ => rfl, fun i s t d hi hexec => ?_⟩
  have halike := (rngReplaced_unobserved s.rng d).exec_alike_of_ne_rnd ⟨rfl, rfl⟩ i hi
  rw [hexec] at halike
  obtain ⟨_, hexec', hrng, rfl⟩ := halike.next_right
  exact ⟨hrng, hexec'⟩

end Sys2Proof.Proofs
end

section
/-! The fields of a word as numbers (spec/30_encoding.md R45): the four that `Laws/Encoding.lean` does not state. -/

namespace Sys2Proof

theorem fieldOp_toNat (w : Word) : (fieldOp w).toNat = w.toNat / 4096 := by
  have hkey : (fieldOp w).toNat = w.toNat / 4096 % 16 := extractLsb'_toNat w 12 4
  have hw := w.isLt
  omega

/-- The low bits of a word, as arithmetic. -/
theorem extractLsb'_zero_toNat (w : Word) (len : Nat) : (w.extractLsb' 0 len).toNat = w.toNat % 2 ^ len := by
  rw [extractLsb'_toNat, Nat.pow_zero, Nat.div_one]

theorem fieldN_toNat (w : Word) : (fieldN w).toNat = w.toNat % 16 := extractLsb'_zero_toNat w 4

theorem fieldNN_toNat (w : Word) : (fieldNN w).toNat = w.toNat % 256 := extractLsb'_zero_toNat w 8

theorem fieldNNN_toNat (w : Word) : (fieldNNN w).toNat = w.toNat % 4096 := extractLsb'_zero_toNat w 12

end Sys2Proof
end

section
/-! The statement about the word of an instruction and its fields. -/

namespace Sys2Proof.Proofs

open Sys2Proof

/-- Settles O2: the word is the high byte followed by the low one, and each field is the quotient by its lowest bit's weight,
modulo 2 to its width; the dispatch key needs no modulus, for nothing lies above it. -/
theorem wordAndFields : Obligations.WordAndFields := fun b0 b1 w =>
  ⟨wordOfBytes_toNat b0 b1, fieldOp_toNat w, fieldX_val w, fieldY_val w, fieldN_toNat w, fieldNN_toNat w, fieldNNN_toNat w⟩

end Sys2Proof.Proofs
end

section
/-! The step of a Running engine (spec/40_control_flow.md R57 to R59): that every instruction answers a next state, and an
equation for each of the step's three ends. -/

namespace Sys2Proof.Machine

theorem execRet_is_next (s : State) : ∃ t, execRet s = .next t := by
  unfold execRet
  split
  · exact ⟨_, rfl⟩
  · split <;> exact ⟨_, rfl⟩

theorem execJp_is_next (nnn : Addr12) (s : State) : ∃ t, execJp nnn s = .next t := by
  unfold execJp
  split <;> exact ⟨_, rfl⟩

theorem execCall_is_next (nnn : Addr12) (s : State) : ∃ t, execCall nnn s = .next t := by
  unfold execCall
  split
  · exact ⟨_, rfl⟩
  · exact Effect.finish_is_next _ _

theorem execCls_is_next (s : State) : ∃ t, execCls s = .next t := Effect.finish_is_next _ _

/-- Every instruction answers a next state, from every state: a raised fault is one too (R92; entry 1). -/
theorem exec_is_next (i : Instr) (s : State) : ∃ t, exec i s = .next t := by
  cases i with
  | ret => exact execRet_is_next s
  | jp nnn => exact execJp_is_next nnn s
  | call nnn => exact execCall_is_next nnn s
  | cls => exact execCls_is_next s
  | drw | storeBlock | loadBlock => exact Effect.finish_is_next _ _
  | seImm | sneImm | seReg | ldImm | addImm | ldReg | orReg | andReg | xorReg | addReg | subReg | shr | subnReg | shl | ldI
  | rnd | addI => exact ⟨_, rfl⟩

variable {s : State} (hs : s.status = .running)
include hs

theorem step_of_fetch_error {f : EngineFault} (hf : fetch s = .error f) : step s = raise f s := by
  simp only [step, hs, hf]

theorem step_of_decode_error {w : Word} {e : DecodeReject} (hf : fetch s = .ok w) (hd : decodeWord w = .error e) :
    step s = raise (.unimplementedInstruction w s.pc) s := by
  simp only [step, hs, hf, hd]

theorem step_of_decoded {w : Word} {i : Instr} (hf : fetch s = .ok w) (hd : decodeWord w = .ok i) : step s = exec i s := by
  simp only [step, hs, hf, hd]

theorem step_is_next : ∃ t, step s = .next t := by
  cases hf : fetch s with
  | error f => exact ⟨_, step_of_fetch_error hs hf⟩
  | ok w =>
    cases hd : decodeWord w with
    | error e => exact ⟨_, step_of_decode_error hs hf hd⟩
    | ok i =>
      rw [step_of_decoded hs hf hd]
      exact exec_is_next i s

end Sys2Proof.Machine
end

section
/-! The statement about when there is a step. -/

namespace Sys2Proof.Proofs

open Sys2Proof Sys2Proof.Machine

/-- Settles O9: a next state comes of a Running engine alone (`step_cases`), and each of the three ends of a Running engine's
step is a next state (`step_is_next`). -/
theorem stepExistsExactlyWhileRunning : Obligations.StepExistsExactlyWhileRunning := fun _ =>
  ⟨⟨fun ⟨_, hstep⟩ => (step_cases hstep).1, step_is_next⟩, fun _ _ hs hf hd => step_of_decoded hs hf hd⟩

end Sys2Proof.Proofs
end

section
/-! The words of the immediate forms as numbers, and what the decoder answers to them (spec/30_encoding.md R47, R50). -/

namespace Sys2Proof

/-- A word with the number of an immediate form is that form. -/
theorem eq_encodeXK_of_toNat {w : Word} {x : RegIdx} {nn : Byte} (op : BitVec 4)
    (hw : w.toNat = op.toNat * 4096 + x.val * 256 + nn.toNat) : w = encodeXK op x nn :=
  BitVec.eq_of_toNat_eq (hw.trans (encodeXK_toNat op x nn).symm)

theorem decodeWord_encodeXK_six (x : RegIdx) (nn : Byte) : decodeWord (encodeXK 0x6#4 x nn) = .ok (.ldImm x nn) := by
  simp only [decodeWord, fieldOp_encodeXK, fieldX_encodeXK, fieldNN_encodeXK]

theorem decodeWord_encodeXK_seven (x : RegIdx) (nn : Byte) : decodeWord (encodeXK 0x7#4 x nn) = .ok (.addImm x nn) := by
  simp only [decodeWord, fieldOp_encodeXK, fieldX_encodeXK, fieldNN_encodeXK]

end Sys2Proof
end

section
/-! The common end of the flagless register forms (spec/41_alu.md R68 to R73): one register written, PC advanced, and
nothing else changed. -/

namespace Sys2Proof.Machine

theorem advanced_advance (s : State) : Advanced s (s.advance 2) := BitVec.toNat_add s.pc 2

/-- Below the wrap, PC is advanced by 2 exactly. -/
theorem Advanced.pc_of_lt {s t : State} (h : Advanced s t) (hpc : s.pc.toNat + 2 < 2 ^ 16) :
    t.pc.toNat = s.pc.toNat + 2 :=
  h.trans (Nat.mod_eq_of_lt hpc)

theorem changesOnlyRegs_setReg_advance (x : RegIdx) (b : Byte) (s : State) (adv : Word) :
    ChangesOnlyRegs (fun r => r = x) s ((s.setReg x b).advance adv) :=
  ⟨fun _ hr => State.reg_setReg_other s b hr, fun _ _ => rfl, ⟨rfl, rfl, rfl, rfl⟩, rfl, rfl⟩

theorem writeReg_spec (x : RegIdx) (b : Byte) (s : State) : ∃ t, writeReg x b s = .next t ∧ t.reg x = b ∧
    Advanced s t ∧ ChangesOnlyRegs (fun r => r = x) s t :=
  ⟨_, rfl, State.reg_setReg_same s x b, advanced_advance _, changesOnlyRegs_setReg_advance x b s 2⟩

theorem exec_ldImm (x : RegIdx) (nn : Byte) (s : State) : exec (.ldImm x nn) s = writeReg x nn s := rfl

theorem exec_addImm (x : RegIdx) (nn : Byte) (s : State) : exec (.addImm x nn) s = writeReg x (s.reg x + nn) s := rfl

end Sys2Proof.Machine
end

section
/-! The statement about the immediate forms. -/

namespace Sys2Proof.Proofs

open Sys2Proof Sys2Proof.Machine

/-- Settles O11: the word is the encoding of the form, whose fields the decoder reads back; both forms end in `writeReg`, and
the sum of two bytes is the sum modulo 256. -/
theorem loadAndAddImmediate : Obligations.LoadAndAddImmediate := by
  intro x nn s
  refine ⟨fun w hw => ?_, ?_, fun w hw => ?_, ?_⟩
  · rw [eq_encodeXK_of_toNat 0x6#4 hw, decodeWord_encodeXK_six]
  · obtain ⟨t, hexec, hx, hpc, hframe⟩ := writeReg_spec x nn s
    exact ⟨t, (exec_ldImm x nn s).trans hexec, hx, hframe, Advanced.pc_of_lt hpc⟩
  · rw [eq_encodeXK_of_toNat 0x7#4 hw, decodeWord_encodeXK_seven]
  · obtain ⟨t, hexec, hx, hpc, hframe⟩ := writeReg_spec x (s.reg x + nn) s
    have hsum : (t.reg x).toNat = ((s.reg x).toNat + nn.toNat) % 256 := by rw [hx, BitVec.toNat_add]
    exact ⟨t, (exec_addImm x nn s).trans hexec, hsum, hframe, Advanced.pc_of_lt hpc⟩

end Sys2Proof.Proofs
end

section
/-! The words that decode to a jump (spec/30_encoding.md R49, R50), and when a jump's target is PC (R48). -/

namespace Sys2Proof

open Sys2Proof.Machine

theorem decodeZero_ne_jp (w : Word) (nnn : Addr12) : decodeZero w ≠ .ok (.jp nnn) := by
  unfold decodeZero
  split
  · nofun
  · split <;> nofun

theorem decodeFive_ne_jp (w : Word) (nnn : Addr12) : decodeFive w ≠ .ok (.jp nnn) := by
  unfold decodeFive
  split <;> nofun

theorem decodeEight_ne_jp (w : Word) (nnn : Addr12) : decodeEight w ≠ .ok (.jp nnn) := by
  unfold decodeEight
  split <;> nofun

theorem decodeFifteen_ne_jp (w : Word) (nnn : Addr12) : decodeFifteen w ≠ .ok (.jp nnn) := by
  unfold decodeFifteen
  split <;> nofun

/-- Of the keys of R49, 1 alone gives a jump: its own arm is the second, and no selector of the keys 0, 5, 8 and F does. -/
theorem fields_of_decodeWord_jp {w : Word} {nnn : Addr12} (h : decodeWord w = .ok (.jp nnn)) :
    fieldOp w = 0x1#4 ∧ fieldNNN w = nnn := by
  unfold decodeWord at h
  split at h
  case h_2 hop =>
    injection h with h
    injection h with h
    exact ⟨hop, h⟩
  case h_1 => exact absurd h (decodeZero_ne_jp w nnn)
  case h_6 => exact absurd h (decodeFive_ne_jp w nnn)
  case h_9 => exact absurd h (decodeEight_ne_jp w nnn)
  case h_13 => exact absurd h (decodeFifteen_ne_jp w nnn)
  all_goals cases h

/-- A word is its dispatch key followed by its field nnn (R45). -/
theorem encodeA_fields (w : Word) : encodeA (fieldOp w) (fieldNNN w) = w := by
  apply BitVec.eq_of_toNat_eq
  rw [encodeA_toNat, fieldOp_toNat, fieldNNN_toNat]
  omega

theorem eq_encode_jp_of_decodeWord {w : Word} {nnn : Addr12} (h : decodeWord w = .ok (.jp nnn)) : w = encode (.jp nnn) := by
  obtain ⟨hop, hnnn⟩ := fields_of_decodeWord_jp h
  rw [encode, ← hop, ← hnnn, encodeA_fields]

theorem zextAddr_eq_iff (nnn : Addr12) (w : Word) : zextAddr nnn = w ↔ w.toNat = nnn.toNat := by
  rw [← BitVec.toNat_inj, zextAddr, BitVec.toNat_setWidth_of_le (by omega)]
  exact eq_comm

end Sys2Proof
end

section
/-! What an instruction can do to the status (spec/40_control_flow.md R61, spec/60_exceptions.md R92, R100): a jump to its own
address halts, a fault is recorded, and everything else leaves the status as it is. -/

namespace Sys2Proof.Machine

/-- The outcome is a next state whose status is that of `s`, or a fault. -/
def KeepsStatusOrFaults (s : State) (o : Outcome) : Prop :=
  ∃ t, o = .next t ∧ (t.status = s.status ∨ ∃ f, t.status = .faulted f)

variable {s t : State}

theorem KeepsStatusOrFaults.next (h : t.status = s.status) : KeepsStatusOrFaults s (.next t) := ⟨t, rfl, .inl h⟩

theorem KeepsStatusOrFaults.raise (f : EngineFault) : KeepsStatusOrFaults s (raise f t) := ⟨_, rfl, .inr ⟨f, rfl⟩⟩

/-- An instruction built on an effect: only the state of a completed effect matters, for a raised one ends in a fault. -/
theorem KeepsStatusOrFaults.finish {e : Effect} {k : State → State} (he : ∀ t, e = .done t → t.status = s.status)
    (hk : ∀ t, (k t).status = t.status) : KeepsStatusOrFaults s (e.finish k) := by
  cases e with
  | done t => exact .next ((hk t).trans (he t rfl))
  | raised f t => exact .raise f

theorem storeBytes_done_status {a : Nat} {bs : List Byte} (h : storeBytes a bs s = .done t) : t.status = s.status := by
  obtain ⟨m, hm, -, -⟩ := storeBytes_spec bs a s
  rw [h] at hm
  split at hm
  · injection hm with hm
    rw [hm, State.setMem_status]
  · cases hm

theorem loadRegs_done_status {a : Nat} {rs : List RegIdx} (hrs : rs.Nodup) (h : loadRegs a rs s = .done t) :
    t.status = s.status := by
  obtain ⟨v, hv, -, -⟩ := loadRegs_spec rs a s hrs
  rw [h] at hv
  split at hv
  · injection hv with hv
    rw [hv]
  · cases hv

theorem drawRows_done_status {base vx vy n : Nat} (h : drawRows base vx vy (List.range n) true s = .done t) :
    t.status = s.status := by
  obtain ⟨u, _, hu | ⟨_, _, hu⟩, hkeeps, -⟩ := drawRows_effects base vx vy n (List.range n) true s fun _ => List.mem_range.mp
  · rw [h] at hu
    injection hu with hu
    rw [hu, hkeeps.status]
  · rw [h] at hu
    cases hu

theorem advanceBlock_status (x : RegIdx) (s : State) : (advanceBlock x s).status = s.status := by
  unfold advanceBlock
  split <;> rfl

theorem execRet_keepsStatusOrFaults (s : State) : KeepsStatusOrFaults s (execRet s) := by
  unfold execRet
  split
  · exact .raise _
  · split
    · exact .raise _
    · exact .next rfl

theorem execCall_keepsStatusOrFaults (nnn : Addr12) (s : State) : KeepsStatusOrFaults s (execCall nnn s) := by
  unfold execCall
  split
  · exact .raise _
  · exact .finish (fun _ => storeBytes_done_status) fun _ => rfl

theorem execCls_keepsStatusOrFaults (s : State) : KeepsStatusOrFaults s (execCls s) := by
  unfold execCls
  exact .finish (fun _ => storeBytes_done_status) fun _ => rfl

/-- Every instruction but JP keeps the status or faults. -/
theorem exec_keepsStatusOrFaults {i : Instr} (hi : ∀ nnn, i ≠ .jp nnn) (s : State) : KeepsStatusOrFaults s (exec i s) := by
  cases i with
  | jp nnn => exact absurd rfl (hi nnn)
  | ret => exact execRet_keepsStatusOrFaults s
  | call nnn => exact execCall_keepsStatusOrFaults nnn s
  | cls => exact execCls_keepsStatusOrFaults s
  | drw x y n => exact .finish (fun _ => drawRows_done_status) fun _ => rfl
  | storeBlock x => exact .finish (fun _ => storeBytes_done_status) (advanceBlock_status x)
  | loadBlock x => exact .finish (fun _ => loadRegs_done_status (blockRegs_nodup x)) (advanceBlock_status x)
  | seImm | sneImm | seReg | ldImm | addImm | ldReg | orReg | andReg | xorReg | addReg | subReg | shr | subnReg | shl | ldI
  | rnd | addI => exact .next rfl

/-! ### Entering and leaving Halted -/

theorem execJp_self {nnn : Addr12} (h : zextAddr nnn = s.pc) : execJp nnn s = .next (s.setStatus .halted) := if_pos h

theorem execJp_away {nnn : Addr12} (h : zextAddr nnn ≠ s.pc) : execJp nnn s = .next (s.setPc (zextAddr nnn)) := if_neg h

/-- The only instruction that halts a Running engine is a jump to its own address. -/
theorem exec_halts {i : Instr} (hs : s.status = .running) (h : exec i s = .next t) (ht : t.status = .halted) :
    ∃ nnn, i = .jp nnn ∧ zextAddr nnn = s.pc ∧ t = s.setStatus .halted := by
  by_cases hi : ∃ nnn, i = .jp nnn
  · obtain ⟨nnn, rfl⟩ := hi
    change execJp nnn s = .next t at h
    by_cases hself : zextAddr nnn = s.pc
    · rw [execJp_self hself] at h
      injection h with h
      exact ⟨nnn, rfl, hself, h.symm⟩
    · rw [execJp_away hself] at h
      injection h with h
      rw [← h, State.setPc_status, hs] at ht
      cases ht
  · obtain ⟨u, hu, hstatus⟩ := exec_keepsStatusOrFaults (fun nnn e => hi ⟨nnn, e⟩) s
    rw [h] at hu
    injection hu with hu
    rw [← hu, ht, hs] at hstatus
    obtain hstatus | ⟨_, hstatus⟩ := hstatus <;> cases hstatus

/-- A step that leaves the engine Halted fetched a jump to its own address. -/
theorem step_halts (h : step s = .next t) (ht : t.status = .halted) :
    ∃ nnn, fetch s = .ok (encode (.jp nnn)) ∧ zextAddr nnn = s.pc ∧ t = s.setStatus .halted := by
  obtain ⟨hs, ⟨_, _, rfl⟩ | ⟨_, _, _, _, rfl⟩ | ⟨w, i, hfetch, hdecode, hexec⟩⟩ := step_cases h
  · cases ht
  · cases ht
  · obtain ⟨nnn, rfl, hself, rfl⟩ := exec_halts hs hexec ht
    rw [eq_encode_jp_of_decodeWord hdecode] at hfetch
    exact ⟨nnn, hfetch, hself, rfl⟩

/-- An engine that is not Running reaches itself alone: it has no step (R57). -/
theorem eq_of_reaches_of_not_running (hs : s.status ≠ .running) (h : Reaches s t) : t = s := by
  induction h with
  | refl => rfl
  | step _ _ _ hstep ih =>
    rw [ih] at hstep
    exact absurd (step_cases hstep).1 hs

end Sys2Proof.Machine
end

section
/-! The statements about the halt and about what is available in every state. -/

namespace Sys2Proof.Proofs

open Sys2Proof Sys2Proof.Machine

/-- Settles O42: a jump to its own address is the halting branch of `execJp`, a step that leaves the engine Halted is such a
jump (`step_halts`), and a halted engine has no step. -/
theorem selfJumpHaltsForGood : Obligations.SelfJumpHaltsForGood := by
  refine ⟨fun nnn s hpc => execJp_self ((zextAddr_eq_iff nnn s.pc).mpr hpc), fun s t hstep ht => ?_, fun s t hs hreach => ?_⟩
  · obtain ⟨nnn, hfetch, hself, rfl⟩ := step_halts hstep ht
    exact ⟨nnn, hfetch, (zextAddr_eq_iff nnn s.pc).mp hself, rfl⟩
  · exact eq_of_reaches_of_not_running (by rw [hs]; nofun) hreach

/-- Settles O41: every instruction answers a next state (`exec_is_next`), and a byte access tests nothing but the address. -/
theorem everyInstructionIsAvailable : Obligations.EveryInstructionIsAvailable := by
  refine ⟨exec_is_next, fun a b k s ha => ⟨readByte_inside k s ha, s.pokeByte a b, writeByte_inside b s ha, ?_⟩⟩
  rw [State.byteAt_pokeByte, if_pos rfl]

end Sys2Proof.Proofs
end

section
/-! Decoding and encoding are inverse to each other (spec/30_encoding.md R46, R47, R50). -/

namespace Sys2Proof

/-! ### A word from its fields (R45) -/

theorem encodeXK_fields (w : Word) : encodeXK (fieldOp w) (fieldX w) (fieldNN w) = w := by
  apply BitVec.eq_of_toNat_eq
  rw [encodeXK_toNat, fieldOp_toNat, fieldX_val, fieldNN_toNat]
  omega

theorem encodeXYN_fields (w : Word) : encodeXYN (fieldOp w) (fieldX w) (fieldY w) (fieldN w) = w := by
  apply BitVec.eq_of_toNat_eq
  rw [encodeXYN_toNat, fieldOp_toNat, fieldX_val, fieldY_val, fieldN_toNat]
  omega

/-- A word of an immediate form, its key and byte known. -/
theorem encodeXK_of_fields {w : Word} {op : BitVec 4} {nn : Byte} (hop : fieldOp w = op) (hnn : fieldNN w = nn) :
    encodeXK op (fieldX w) nn = w := by
  rw [← hop, ← hnn, encodeXK_fields]

/-- A word of a register form, its key and low nibble known. -/
theorem encodeXYN_of_fields {w : Word} {op n : BitVec 4} (hop : fieldOp w = op) (hn : fieldN w = n) :
    encodeXYN op (fieldX w) (fieldY w) n = w := by
  rw [← hop, ← hn, encodeXYN_fields]

/-- A word of an address form, its key known. -/
theorem encodeA_of_fields {w : Word} {op : BitVec 4} (hop : fieldOp w = op) : encodeA op (fieldNNN w) = w := by
  rw [← hop, encodeA_fields]

/-! ### Decode of encode -/

theorem decodeWord_encode {i : Instr} (hi : i.wellFormed = true) : decodeWord (encode i) = .ok i := by
  cases i with
  | cls | ret => rfl
  | jp | call | ldI => simp only [encode, decodeWord, fieldOp_encodeA, fieldNNN_encodeA]
  | seImm | sneImm | ldImm | addImm | rnd =>
    simp only [encode, decodeWord, fieldOp_encodeXK, fieldX_encodeXK, fieldNN_encodeXK]
  | addI | storeBlock | loadBlock =>
    simp only [encode, decodeWord, decodeFifteen, fieldOp_encodeXK, fieldX_encodeXK, fieldNN_encodeXK]
  | seReg =>
    simp only [encode, decodeWord, decodeFive, fieldOp_encodeXYN, fieldN_encodeXYN, fieldX_encodeXYN, fieldY_encodeXYN,
      if_true]
  | ldReg | orReg | andReg | xorReg | addReg | subReg | shr | subnReg | shl =>
    simp only [encode, decodeWord, decodeEight, fieldOp_encodeXYN, fieldN_encodeXYN, fieldX_encodeXYN, fieldY_encodeXYN]
  | drw x y n =>
    have hn : n < 16 := of_decide_eq_true hi
    simp only [encode, decodeWord, fieldOp_encodeXYN, fieldN_encodeXYN, fieldX_encodeXYN, fieldY_encodeXYN,
      BitVec.toNat_ofNat, Nat.mod_eq_of_lt (show n < 2 ^ 4 from hn)]

theorem decode_cons_cons {b0 b1 : Byte} {i : Instr} (h : decodeWord (wordOfBytes b0 b1) = .ok i) (rest : List Byte) :
    decode (b0 :: b1 :: rest) = .ok (i, rest) := by
  simp only [decode, h]

/-! ### Encode of decode -/

/-- `i` is the one meaning of `w`. -/
def IsMeaningOf (w : Word) (i : Instr) : Prop := i.wellFormed = true ∧ encode i = w

variable {w : Word} {i : Instr}

theorem IsMeaningOf.decodes (h : IsMeaningOf w i) : ∃ j, decodeWord w = .ok j := by
  obtain ⟨hi, rfl⟩ := h
  exact ⟨i, decodeWord_encode hi⟩

theorem isMeaningOf_of_decodeZero (h : decodeZero w = .ok i) : IsMeaningOf w i := by
  unfold decodeZero at h
  split at h
  · next hw => cases h; exact ⟨rfl, hw.symm⟩
  · split at h
    · next hw => cases h; exact ⟨rfl, hw.symm⟩
    · cases h

theorem isMeaningOf_of_decodeFive (hop : fieldOp w = 0x5#4) (h : decodeFive w = .ok i) : IsMeaningOf w i := by
  unfold decodeFive at h
  split at h
  · next hn => cases h; exact ⟨rfl, encodeXYN_of_fields hop hn⟩
  · cases h

theorem isMeaningOf_of_decodeEight (hop : fieldOp w = 0x8#4) (h : decodeEight w = .ok i) : IsMeaningOf w i := by
  unfold decodeEight at h
  split at h
  case h_10 => cases h
  all_goals
    next hn => cases h; exact ⟨rfl, encodeXYN_of_fields hop hn⟩

theorem isMeaningOf_of_decodeFifteen (hop : fieldOp w = 0xF#4) (h : decodeFifteen w = .ok i) : IsMeaningOf w i := by
  unfold decodeFifteen at h
  split at h
  case h_4 => cases h
  all_goals
    next hnn => cases h; exact ⟨rfl, encodeXK_of_fields hop hnn⟩

theorem isMeaningOf_drw (hop : fieldOp w = 0xD#4) : IsMeaningOf w (.drw (fieldX w) (fieldY w) (fieldN w).toNat) := by
  refine ⟨decide_eq_true (fieldN w).isLt, ?_⟩
  rw [encode, BitVec.ofNat_toNat, BitVec.setWidth_eq]
  exact encodeXYN_of_fields hop rfl

/-- The dispatch on the key nibble (R49): in each arm the fields that were not tested are the operands. -/
theorem isMeaningOf_of_decodeWord (h : decodeWord w = .ok i) : IsMeaningOf w i := by
  unfold decodeWord at h
  split at h <;> rename_i hop
  case h_1 => exact isMeaningOf_of_decodeZero h
  case h_6 => exact isMeaningOf_of_decodeFive hop h
  case h_9 => exact isMeaningOf_of_decodeEight hop h
  case h_13 => exact isMeaningOf_of_decodeFifteen hop h
  case h_14 => cases h
  case h_2 | h_3 | h_10 => cases h; exact ⟨rfl, encodeA_of_fields hop⟩
  case h_12 => cases h; exact isMeaningOf_drw hop
  all_goals cases h; exact ⟨rfl, encodeXK_of_fields hop rfl⟩

end Sys2Proof
end

section
/-! The statements about the decoder and the encoder. -/

namespace Sys2Proof.Proofs

open Sys2Proof Sys2Proof.Machine

/-- Settles O1: the decoder evaluates on each of the twelve words. -/
theorem sampleWordsDecode : Obligations.SampleWordsDecode := by
  unfold Obligations.SampleWordsDecode
  decide

/-- Settles O3: format by format, the decoder reads each field back from the encoded word (`decodeWord_encode`), and the two
bytes of a word are the word again. -/
theorem decodeOfEncode : Obligations.DecodeOfEncode := by
  intro i hi
  have hword := decodeWord_encode hi
  refine ⟨hword, fun rest => decode_cons_cons ?_ rest⟩
  rw [wordOfBytes_split, hword]

/-- Settles O4: every arm of the dispatcher tests the fields that its form fixes and passes on the others as operands. -/
theorem encodeOfDecode : Obligations.EncodeOfDecode := fun _ _ => isMeaningOf_of_decodeWord

end Sys2Proof.Proofs
end

section
/-! The dispatcher and the opcode map (spec/30_encoding.md R49 to R52): a word selects one row of the map if it decodes, and
none if it does not. -/

namespace Sys2Proof

/-! ### One row at most -/

/-- No word can select both rows: they ask for different values of a bit that both fix. -/
def OpcodeRow.apart (r q : OpcodeRow) : Bool := (r.matchBits ^^^ q.matchBits) &&& (r.mask &&& q.mask) != 0#16

theorem selects_iff (r : OpcodeRow) (w : Word) : r.selects w = true ↔ w &&& r.mask = r.matchBits := beq_iff_eq

theorem selects_of_apart {r q : OpcodeRow} {w : Word} (hapart : r.apart q = true) (hr : r.selects w = true) :
    q.selects w = false := by
  by_contra hq
  rw [Bool.not_eq_false] at hq
  rw [selects_iff] at hr hq
  rw [OpcodeRow.apart, bne_iff_ne, ← hr, ← hq] at hapart
  apply hapart
  apply BitVec.eq_of_getLsbD_eq
  intro k _
  simp only [BitVec.getLsbD_and, BitVec.getLsbD_xor, BitVec.getLsbD_zero]
  cases w.getLsbD k <;> cases r.mask.getLsbD k <;> cases q.mask.getLsbD k <;> rfl

/-- Of a list of rows that are pairwise apart, a word selects no other than the one it is known to select. -/
theorem filter_selects_eq_singleton {w : Word} {r : OpcodeRow} (hr : r.selects w = true) {rows : List OpcodeRow}
    (hrows : rows.Pairwise fun p q => p.apart q = true) (hmem : r ∈ rows) :
    rows.filter (fun q => q.selects w) = [r] := by
  have others : ∀ {p : OpcodeRow} {qs : List OpcodeRow}, p.selects w = true → (∀ q ∈ qs, p.apart q = true) →
      qs.filter (fun q => q.selects w) = [] := fun hp hqs => by
    rw [List.filter_eq_nil_iff]
    intro q hq
    rw [selects_of_apart (hqs q hq) hp]
    exact Bool.false_ne_true
  induction hrows with
  | nil => cases hmem
  | @cons p qs hp hqs ih =>
    obtain rfl | hmem := List.mem_cons.mp hmem
    · rw [List.filter_cons, if_pos hr, others hr hp]
    · have hpw : p.selects w = false := by
        by_contra hpw
        rw [Bool.not_eq_false] at hpw
        rw [selects_of_apart (hp r hmem) hpw] at hr
        cases hr
      rw [List.filter_cons, hpw, if_neg Bool.false_ne_true, ih hmem]

theorem opcodeMap_apart : opcodeMap.Pairwise fun p q => p.apart q = true := by decide

theorem row_mem_opcodeMap (i : Instr) : i.row ∈ opcodeMap := by
  cases i <;> simp only [opcodeMap, Instr.row, List.cons_append, List.nil_append, List.mem_cons, true_or, or_true]

/-- Every instruction's encoding selects the instruction's row: the family of Laws/PerInstr.lean, gathered. -/
theorem row_selects_encode (i : Instr) : i.row.selects (encode i) = true := by
  cases i with
  | cls => exact Laws.EncodesInRow.cls
  | ret => exact Laws.EncodesInRow.ret
  | jp nnn => exact Laws.EncodesInRow.jp nnn
  | call nnn => exact Laws.EncodesInRow.call nnn
  | seImm x nn => exact Laws.EncodesInRow.seImm x nn
  | sneImm x nn => exact Laws.EncodesInRow.sneImm x nn
  | seReg x y => exact Laws.EncodesInRow.seReg x y
  | ldImm x nn => exact Laws.EncodesInRow.ldImm x nn
  | addImm x nn => exact Laws.EncodesInRow.addImm x nn
  | ldReg x y => exact Laws.EncodesInRow.ldReg x y
  | orReg x y => exact Laws.EncodesInRow.orReg x y
  | andReg x y => exact Laws.EncodesInRow.andReg x y
  | xorReg x y => exact Laws.EncodesInRow.xorReg x y
  | addReg x y => exact Laws.EncodesInRow.addReg x y
  | subReg x y => exact Laws.EncodesInRow.subReg x y
  | shr x y => exact Laws.EncodesInRow.shr x y
  | subnReg x y => exact Laws.EncodesInRow.subnReg x y
  | shl x y => exact Laws.EncodesInRow.shl x y
  | ldI nnn => exact Laws.EncodesInRow.ldI nnn
  | rnd x nn => exact Laws.EncodesInRow.rnd x nn
  | drw x y n => exact Laws.EncodesInRow.drw x y n
  | addI x => exact Laws.EncodesInRow.addI x
  | storeBlock x => exact Laws.EncodesInRow.storeBlock x
  | loadBlock x => exact Laws.EncodesInRow.loadBlock x

theorem row_selects_of_decodeWord {w : Word} {i : Instr} (h : decodeWord w = .ok i) : i.row.selects w = true := by
  obtain ⟨-, rfl⟩ := isMeaningOf_of_decodeWord h
  exact row_selects_encode i

/-! ### No row without an instruction -/

section
variable {w : Word} {n : Nat} {op : BitVec 4}

theorem encodeA_of_selects_key (h : (OpcodeRow.mk n (op ++ 0x000#12 : BitVec 16) 0xF000#16).selects w = true) :
    encodeA op (fieldNNN w) = w := encodeA_of_fields ((selects_key n op w).mp h)

theorem encodeXK_of_selects_key (h : (OpcodeRow.mk n (op ++ 0x000#12 : BitVec 16) 0xF000#16).selects w = true) :
    encodeXK op (fieldX w) (fieldNN w) = w := encodeXK_of_fields ((selects_key n op w).mp h) rfl

theorem encodeXYN_of_selects_keyLow {lo : BitVec 4}
    (h : (OpcodeRow.mk n (op ++ 0x00#8 ++ lo : BitVec 16) 0xF00F#16).selects w = true) :
    encodeXYN op (fieldX w) (fieldY w) lo = w := ((selects_keyLow n op lo w).mp h).elim encodeXYN_of_fields

theorem encodeXK_of_selects_keyByte {b : Byte}
    (h : (OpcodeRow.mk n (op ++ 0x0#4 ++ b : BitVec 16) 0xF0FF#16).selects w = true) :
    encodeXK op (fieldX w) b = w := ((selects_keyByte n op b w).mp h).elim encodeXK_of_fields

end

/-- A word that selects an instruction's row decodes: it is the encoding of the instruction with the word's own operands. -/
theorem decodes_of_row_selects {w : Word} {i : Instr} (h : i.row.selects w = true) : ∃ j, decodeWord w = .ok j := by
  cases i with
  | cls => exact ⟨.cls, (selects_word _ _ w).mp h ▸ rfl⟩
  | ret => exact ⟨.ret, (selects_word _ _ w).mp h ▸ rfl⟩
  | jp => exact IsMeaningOf.decodes (i := .jp _) ⟨rfl, encodeA_of_selects_key h⟩
  | call => exact IsMeaningOf.decodes (i := .call _) ⟨rfl, encodeA_of_selects_key h⟩
  | seImm => exact IsMeaningOf.decodes (i := .seImm _ _) ⟨rfl, encodeXK_of_selects_key h⟩
  | sneImm => exact IsMeaningOf.decodes (i := .sneImm _ _) ⟨rfl, encodeXK_of_selects_key h⟩
  | seReg => exact IsMeaningOf.decodes (i := .seReg _ _) ⟨rfl, encodeXYN_of_selects_keyLow h⟩
  | ldImm => exact IsMeaningOf.decodes (i := .ldImm _ _) ⟨rfl, encodeXK_of_selects_key h⟩
  | addImm => exact IsMeaningOf.decodes (i := .addImm _ _) ⟨rfl, encodeXK_of_selects_key h⟩
  | ldReg => exact IsMeaningOf.decodes (i := .ldReg _ _) ⟨rfl, encodeXYN_of_selects_keyLow h⟩
  | orReg => exact IsMeaningOf.decodes (i := .orReg _ _) ⟨rfl, encodeXYN_of_selects_keyLow h⟩
  | andReg => exact IsMeaningOf.decodes (i := .andReg _ _) ⟨rfl, encodeXYN_of_selects_keyLow h⟩
  | xorReg => exact IsMeaningOf.decodes (i := .xorReg _ _) ⟨rfl, encodeXYN_of_selects_keyLow h⟩
  | addReg => exact IsMeaningOf.decodes (i := .addReg _ _) ⟨rfl, encodeXYN_of_selects_keyLow h⟩
  | subReg => exact IsMeaningOf.decodes (i := .subReg _ _) ⟨rfl, encodeXYN_of_selects_keyLow h⟩
  | shr => exact IsMeaningOf.decodes (i := .shr _ _) ⟨rfl, encodeXYN_of_selects_keyLow h⟩
  | subnReg => exact IsMeaningOf.decodes (i := .subnReg _ _) ⟨rfl, encodeXYN_of_selects_keyLow h⟩
  | shl => exact IsMeaningOf.decodes (i := .shl _ _) ⟨rfl, encodeXYN_of_selects_keyLow h⟩
  | ldI => exact IsMeaningOf.decodes (i := .ldI _) ⟨rfl, encodeA_of_selects_key h⟩
  | rnd => exact IsMeaningOf.decodes (i := .rnd _ _) ⟨rfl, encodeXK_of_selects_key h⟩
  | drw => exact (isMeaningOf_drw ((selects_key _ 0xD#4 w).mp h)).decodes
  | addI => exact IsMeaningOf.decodes (i := .addI _) ⟨rfl, encodeXK_of_selects_keyByte h⟩
  | storeBlock => exact IsMeaningOf.decodes (i := .storeBlock _) ⟨rfl, encodeXK_of_selects_keyByte h⟩
  | loadBlock => exact IsMeaningOf.decodes (i := .loadBlock _) ⟨rfl, encodeXK_of_selects_keyByte h⟩

/-- Every row of the map is the row of an instruction. -/
theorem exists_row_of_mem_opcodeMap : ∀ r ∈ opcodeMap, ∃ i : Instr, i.row = r := by
  simp only [opcodeMap, List.cons_append, List.nil_append, List.forall_mem_cons, exists_apply_eq_apply, true_and,
    List.not_mem_nil, false_imp_iff, implies_true]

theorem decodes_of_selects {w : Word} {r : OpcodeRow} (hmem : r ∈ opcodeMap) (h : r.selects w = true) :
    ∃ j, decodeWord w = .ok j := by
  obtain ⟨i, rfl⟩ := exists_row_of_mem_opcodeMap r hmem
  exact decodes_of_row_selects h

/-! ### What a rejected word is rejected as -/

theorem eq_unimplemented_of_decodeZero {w : Word} {e : DecodeReject} (h : decodeZero w = .error e) : e = .unimplemented w := by
  unfold decodeZero at h
  split at h
  · cases h
  · split at h <;> cases h
    rfl

theorem eq_unimplemented_of_decodeFive {w : Word} {e : DecodeReject} (h : decodeFive w = .error e) : e = .unimplemented w := by
  unfold decodeFive at h
  split at h <;> cases h
  rfl

theorem eq_unimplemented_of_decodeEight {w : Word} {e : DecodeReject} (h : decodeEight w = .error e) :
    e = .unimplemented w := by
  unfold decodeEight at h
  split at h <;> cases h
  rfl

theorem eq_unimplemented_of_decodeFifteen {w : Word} {e : DecodeReject} (h : decodeFifteen w = .error e) :
    e = .unimplemented w := by
  unfold decodeFifteen at h
  split at h <;> cases h
  rfl

theorem eq_unimplemented_of_decodeWord {w : Word} {e : DecodeReject} (h : decodeWord w = .error e) : e = .unimplemented w := by
  unfold decodeWord at h
  split at h
  case h_1 => exact eq_unimplemented_of_decodeZero h
  case h_6 => exact eq_unimplemented_of_decodeFive h
  case h_9 => exact eq_unimplemented_of_decodeEight h
  case h_13 => exact eq_unimplemented_of_decodeFifteen h
  all_goals cases h
  rfl

/-- A word that selects no row is rejected. -/
theorem decodeWord_of_no_row {w : Word} (h : ∀ r ∈ opcodeMap, r.selects w = false) : decodeWord w = .error (.unimplemented w) := by
  cases hd : decodeWord w with
  | ok i =>
    have hsel := row_selects_of_decodeWord hd
    rw [h _ (row_mem_opcodeMap i)] at hsel
    cases hsel
  | error e => rw [eq_unimplemented_of_decodeWord hd]

end Sys2Proof
end

section
/-! The steps of a Running engine by what stands at PC (spec/40_control_flow.md R58, R59), and the byte accesses. -/

namespace Sys2Proof.Machine

theorem step_of_decodable_at_pc {s : State} {i : Instr} (hs : s.status = .running) (hpc : s.pc.toNat + 1 < config.memSize)
    (hd : decodeWord (wordOfBytes (s.byteAt s.pc.toNat) (s.byteAt (s.pc.toNat + 1))) = .ok i) : step s = exec i s :=
  step_of_decoded hs (fetch_inside s hpc) hd

/-! ### A word placed where the next step fetches -/

section
variable {s : State} {nbits w : Nat} (hpc : s.pc.toNat + 1 < config.memSize)
include hpc

theorem withFetchWord_eq : s.withFetchWord nbits w =
    (s.pokeByte s.pc.toNat (highByte (tableWord nbits w))).pokeByte (s.pc.toNat + 1) (lowByte (tableWord nbits w)) :=
  if_pos hpc

theorem withFetchWord_byteAt (a : Nat) : (s.withFetchWord nbits w).byteAt a =
    if a = s.pc.toNat + 1 then lowByte (tableWord nbits w)
    else if a = s.pc.toNat then highByte (tableWord nbits w) else s.byteAt a := by
  rw [withFetchWord_eq hpc, State.byteAt_pokeByte, State.byteAt_pokeByte]

theorem withFetchWord_changes_mem_alone : s.withFetchWord nbits w = { s with mem := (s.withFetchWord nbits w).mem } := by
  rw [withFetchWord_eq hpc]
  rfl

theorem fetch_withFetchWord : fetch (s.withFetchWord nbits w) = .ok (tableWord nbits w) := by
  have hsame : (s.withFetchWord nbits w).pc = s.pc := by rw [withFetchWord_changes_mem_alone hpc]
  rw [fetch_inside _ (by rwa [hsame]), hsame, withFetchWord_byteAt hpc, withFetchWord_byteAt hpc, if_neg (by omega),
    if_pos rfl, if_pos rfl, wordOfBytes_split]

end

theorem decodeWord_of_decodeTableWord {nbits w : Nat} {i : Instr} (h : decodeTableWord nbits w = some i) :
    decodeWord (tableWord nbits w) = .ok i := by
  rw [decodeTableWord, decode, wordOfBytes_split] at h
  cases hd : decodeWord (tableWord nbits w) with
  | ok j =>
    rw [hd] at h
    cases h
    rfl
  | error e =>
    rw [hd] at h
    cases h

end Sys2Proof.Machine
end

section
/-! The statements about the opcode map, the fetch and the byte accesses. -/

namespace Sys2Proof.Proofs

open Sys2Proof Sys2Proof.Machine

/-- Settles O5: a word that decodes selects its instruction's row, and no other, for the rows are pairwise apart; a row that
is selected has the key and the selector that the dispatcher tests. -/
theorem dispatchAgreesWithOpcodeMap : Obligations.DispatchAgreesWithOpcodeMap := by
  refine fun w => ⟨fun i hi => ?_, fun e he => ⟨eq_unimplemented_of_decodeWord he, ?_⟩⟩
  · exact filter_selects_eq_singleton (row_selects_of_decodeWord hi) opcodeMap_apart (row_mem_opcodeMap i)
  · rw [List.filter_eq_nil_iff]
    intro r hr hsel
    obtain ⟨j, hj⟩ := decodes_of_selects hr hsel
    rw [he] at hj
    cases hj

/-- Settles O6: the fetch gives the word of the two bytes at PC, and the step of a decoded word is its execution. -/
theorem stepRunsTheDecodedInstruction : Obligations.StepRunsTheDecodedInstruction := fun _ _ =>
  step_of_decodable_at_pc

/-- Settles O7: a word that selects no row does not decode (`decodeWord_of_no_row`), and the step of such a word raises. -/
theorem unimplementedWordFaults : Obligations.UnimplementedWordFaults := by
  intro s w hs hpc hw hrows
  have hfetch : fetch s = .ok w := hw ▸ fetch_inside s hpc
  exact step_of_decode_error hs hfetch (decodeWord_of_no_row hrows)

/-- Settles O8: the word read fails at its first byte, or at its second when that is the first outside. -/
theorem fetchOutsideMemoryFaults : Obligations.FetchOutsideMemoryFaults := fun s hs =>
  ⟨fun hpc => step_of_fetch_error hs (readWord_outside .fetch s hpc),
   fun hpc => step_of_fetch_error hs (readWord_last .fetch s hpc)⟩

/-- Settles O10: the two bytes at PC are the two halves of the table word, so the fetch gives that word. -/
theorem fetchWordIsRun : Obligations.FetchWordIsRun := by
  intro s nbits w i hs hpc hd
  have hsame := withFetchWord_changes_mem_alone (nbits := nbits) (w := w) hpc
  refine ⟨step_of_decoded ?_ (fetch_withFetchWord hpc) (decodeWord_of_decodeTableWord hd), hsame, ?_⟩
  · rw [hsame]
    exact hs
  · intro a ha
    rw [not_or] at ha
    rw [withFetchWord_byteAt hpc, if_neg ha.2, if_neg ha.1]

/-- Settles O54: the test of the address decides between the access and the fault. -/
theorem byteAccess : Obligations.ByteAccess := by
  refine fun a b v k s => ⟨fun ha hb => ⟨s.pokeByte a v, writeByte_inside v s ha, ?_, rfl⟩, fun ha =>
    ⟨writeByte_outside v s ha, readByte_outside k s ha⟩⟩
  rw [readByte_inside k _ hb, State.byteAt_pokeByte]

end Sys2Proof.Proofs
end

section
/-! What an instruction that stores, loads a block, calls or returns leaves, as equations for each way it can end
(spec/40_control_flow.md R61 to R63, spec/42_address_block.md R82, R83, spec/44_display.md R89). -/

namespace Sys2Proof.Machine

/-! ### Runs of stores -/

/-- `m` is what a run of stores of `bs` at `a` from `s` leaves of memory (`storeBytes_spec`). -/
structure StoredRun (a : Nat) (bs : List Byte) (s : State) (m : Memory) : Prop where
  lookup : ∀ k, Memory.lookup m k = runByte a bs s k
  wf : Memory.wf s.mem = true → Memory.wf m = true

variable {a : Nat} {bs : List Byte} {s : State} {m : Memory}

theorem storeBytes_inside (h : a + bs.length ≤ config.memSize) :
    ∃ m, StoredRun a bs s m ∧ storeBytes a bs s = .done (s.setMem m) := by
  obtain ⟨m, hend, hlookup, hwf⟩ := storeBytes_spec bs a s
  rw [if_pos (.inl h)] at hend
  exact ⟨m, ⟨hlookup, hwf⟩, hend⟩

theorem storeBytes_past_end (hbs : bs ≠ []) (h : config.memSize < a + bs.length) : ∃ m, StoredRun a bs s m ∧
    storeBytes a bs s = .raised (.memoryOutOfRange (max a config.memSize) .write s.pc) (s.setMem m) := by
  obtain ⟨m, hend, hlookup, hwf⟩ := storeBytes_spec bs a s
  rw [if_neg (not_or.mpr ⟨Nat.not_le.mpr h, hbs⟩)] at hend
  exact ⟨m, ⟨hlookup, hwf⟩, hend⟩

theorem StoredRun.byteAt_of_getElem? (h : StoredRun a bs s m) {j : Nat} {b : Byte} (hj : bs[j]? = some b)
    (hin : a + j < config.memSize) : (s.setMem m).byteAt (a + j) = b := by
  rw [State.byteAt, State.setMem_mem, h.lookup, runByte, if_pos ⟨Nat.le_add_right a j, hin⟩, Nat.add_sub_cancel_left, hj,
    Option.getD_some]

/-- The run changes no byte outside it, nor outside memory. -/
theorem StoredRun.keepsBytes (h : StoredRun a bs s m) {w : Nat → Prop}
    (hw : ∀ j, j < bs.length → a + j < config.memSize → w (a + j)) : KeepsBytes w s (s.setMem m) := by
  intro k hk
  rw [State.byteAt, State.setMem_mem, h.lookup, runByte]
  split
  · next hin =>
    have hpast : bs.length ≤ k - a := by
      by_contra hlt
      have hwk := hw (k - a) (by omega) (by omega)
      rw [Nat.add_sub_cancel' hin.1] at hwk
      exact hk hwk
    rw [List.getElem?_eq_none hpast, Option.getD_none]
  · rfl

/-! ### The store block -/

theorem storeBlock_inside {x : RegIdx} (h : s.indexed x.val < config.memSize) : ∃ m,
    StoredRun (s.indexed 0) (s.blockValues x) s m ∧ exec (.storeBlock x) s = .next (advanceBlock x (s.setMem m)) := by
  obtain ⟨m, hm, hend⟩ := storeBytes_inside (s := s) (a := s.indexed 0) (bs := s.blockValues x)
    (by rw [blockValues_length]; exact h)
  exact ⟨m, hm, congrArg (Effect.finish · (advanceBlock x)) hend⟩

theorem storeBlock_past_end {x : RegIdx} (h : config.memSize ≤ s.indexed x.val) : ∃ m,
    StoredRun (s.indexed 0) (s.blockValues x) s m ∧ exec (.storeBlock x) s =
      raise (.memoryOutOfRange (max s.i.toNat config.memSize) .write s.pc) (s.setMem m) := by
  obtain ⟨m, hm, hend⟩ := storeBytes_past_end (s := s) (a := s.indexed 0) (bs := s.blockValues x)
    (List.ne_nil_of_length_eq_add_one (blockValues_length s x)) (by rw [blockValues_length]; exact Nat.lt_succ_of_le h)
  exact ⟨m, hm, congrArg (Effect.finish · (advanceBlock x)) hend⟩

theorem StoredRun.byteAt_indexed {x r : RegIdx} (h : StoredRun (s.indexed 0) (s.blockValues x) s m) (hr : r ≤ x)
    (hin : s.indexed r.val < config.memSize) : (s.setMem m).byteAt (s.indexed r.val) = s.reg r :=
  h.byteAt_of_getElem? (blockValues_get s x r hr) hin

/-- The addresses of a run of the block's values are those of the registers up to x. -/
theorem StoredRun.keepsBytes_indexed {x : RegIdx} (h : StoredRun (s.indexed 0) (s.blockValues x) s m) {w : Nat → Prop}
    (hw : ∀ r : RegIdx, r ≤ x → s.indexed r.val < config.memSize → w (s.indexed r.val)) : KeepsBytes w s (s.setMem m) := by
  refine h.keepsBytes fun j hj hin => ?_
  have hx := x.isLt
  rw [blockValues_length] at hj
  exact hw ⟨j, by omega⟩ (Fin.le_def.mpr (Nat.le_of_lt_succ hj)) hin

/-! ### The load block -/

/-- `v` is what the load block of V[0]..V[x] from `s` leaves of the general registers (`loadRegs_spec`). -/
structure LoadedBlock (x : RegIdx) (s : State) (v : Vector Byte 16) : Prop where
  keeps : ∀ r, ¬ r ≤ x → ({ s with v := v } : State).reg r = s.reg r
  loads : ∀ r, r ≤ x → ({ s with v := v } : State).reg r =
    if s.indexed r.val < config.memSize then s.byteAt (s.indexed r.val) else s.reg r

theorem loadRegs_block (x : RegIdx) (s : State) : ∃ v, LoadedBlock x s v ∧ loadRegs (s.indexed 0) (blockRegs x) s =
    (if s.indexed x.val < config.memSize then Effect.done { s with v := v }
     else .raised (.memoryOutOfRange (max s.i.toNat config.memSize) .read s.pc) { s with v := v }) := by
  obtain ⟨v, hend, hkeeps, hloads⟩ := loadRegs_spec (blockRegs x) (s.indexed 0) s (blockRegs_nodup x)
  have hfits : (s.indexed 0 + (blockRegs x).length ≤ config.memSize ∨ blockRegs x = []) ↔
      s.indexed x.val < config.memSize := by
    rw [or_iff_left (blockRegs_ne_nil x), blockRegs_length]
    exact Iff.rfl
  refine ⟨v, ⟨fun r hr => hkeeps r (mt (mem_blockRegs x r).mp hr), fun r hr => ?_⟩, by rw [hend, if_congr hfits rfl rfl]; rfl⟩
  have hk : r.val < (blockRegs x).length := by
    rw [blockRegs_length]
    exact Nat.lt_succ_of_le hr
  have hget : (blockRegs x)[r.val] = r := Fin.ext (blockRegs_getElem x r.val hk)
  have hload := hloads r.val hk
  rw [hget] at hload
  exact hload

theorem loadBlock_inside {x : RegIdx} (h : s.indexed x.val < config.memSize) : ∃ v,
    LoadedBlock x s v ∧ exec (.loadBlock x) s = .next (advanceBlock x { s with v := v }) := by
  obtain ⟨v, hv, hend⟩ := loadRegs_block x s
  rw [if_pos h] at hend
  exact ⟨v, hv, congrArg (Effect.finish · (advanceBlock x)) hend⟩

theorem loadBlock_past_end {x : RegIdx} (h : config.memSize ≤ s.indexed x.val) : ∃ v, LoadedBlock x s v ∧
    exec (.loadBlock x) s = raise (.memoryOutOfRange (max s.i.toNat config.memSize) .read s.pc) { s with v := v } := by
  obtain ⟨v, hv, hend⟩ := loadRegs_block x s
  rw [if_neg (Nat.not_lt.mpr h)] at hend
  exact ⟨v, hv, congrArg (Effect.finish · (advanceBlock x)) hend⟩

/-! ### The end of a block transfer -/

/-- BLOCK_ADVANCE_I is true for this hardware (decision D21). -/
theorem advanceBlock_eq (x : RegIdx) (s : State) :
    advanceBlock x s = (s.setI (s.i + BitVec.ofNat 16 (x.val + 1))).advance 2 := rfl

theorem advanceBlock_i_toNat (x : RegIdx) (s : State) : (advanceBlock x s).i.toNat = (s.i.toNat + x.val + 1) % 2 ^ 16 := by
  rw [advanceBlock_eq, State.advance_i, State.setI_i, BitVec.toNat_add, BitVec.toNat_ofNat, Nat.add_mod_mod, Nat.add_assoc]

/-! ### CALL and RET -/

/-- The memory that CALL leaves: the return address at SP - 2, high byte first. -/
abbrev PushedReturn (s : State) (m : Memory) : Prop :=
  StoredRun s.pushAddr [highByte (s.pc + 2), lowByte (s.pc + 2)] s m

theorem call_overflows (nnn : Addr12) (h : s.sp.toNat < config.stackLimit + 2) :
    exec (.call nnn) s = raise (.stackOverflow s.sp s.pc) s := if_pos h

/-- With a free slot in memory, both bytes of it are in memory. -/
theorem pushAddr_inside (hlow : config.stackLimit + 2 ≤ s.sp.toNat) (hhigh : s.sp.toNat ≤ config.memSize) :
    s.pushAddr + 1 < config.memSize := by
  rw [config_stackLimit] at hlow
  rw [State.pushAddr]
  omega

theorem call_pushes (nnn : Addr12) (hlow : config.stackLimit + 2 ≤ s.sp.toNat) (hhigh : s.sp.toNat ≤ config.memSize) :
    ∃ m, PushedReturn s m ∧ exec (.call nnn) s = .next (((s.setMem m).setSp (s.sp - 2)).setPc (zextAddr nnn)) := by
  obtain ⟨m, hm, hend⟩ := storeBytes_inside (s := s) (a := s.pushAddr) (bs := [highByte (s.pc + 2), lowByte (s.pc + 2)])
    (pushAddr_inside hlow hhigh)
  refine ⟨m, hm, ?_⟩
  change execCall nnn s = _
  rw [execCall, if_neg (Nat.not_lt.mpr hlow), hend, Effect.finish_done]

/-- With SP above memory, which no run reaches (entry 29). -/
theorem call_past_end (nnn : Addr12) (h : config.memSize < s.sp.toNat) : ∃ m, PushedReturn s m ∧
    exec (.call nnn) s = raise (.memoryOutOfRange (max s.pushAddr config.memSize) .write s.pc) (s.setMem m) := by
  rw [config_memSize] at h
  obtain ⟨m, hm, hend⟩ := storeBytes_past_end (s := s) (a := s.pushAddr) (bs := [highByte (s.pc + 2), lowByte (s.pc + 2)])
    (List.cons_ne_nil _ _) (by rw [config_memSize]; simp only [State.pushAddr, List.length_cons, List.length_nil]; omega)
  refine ⟨m, hm, ?_⟩
  change execCall nnn s = _
  rw [execCall, if_neg (by rw [config_stackLimit]; omega), hend]
  rfl

theorem ret_underflows (h : config.stackBase < s.sp.toNat + 2) : exec .ret s = raise (.stackUnderflow s.sp s.pc) s := if_pos h

/-- The return address that RET pops (R62). -/
def State.poppedWord (s : State) : Word := wordOfBytes (s.byteAt s.sp.toNat) (s.byteAt (s.sp.toNat + 1))

theorem ret_pops (h : s.sp.toNat + 2 ≤ config.stackBase) :
    exec .ret s = .next ((s.setPc s.poppedWord).setSp (s.sp + 2)) := by
  have hin : s.stackTop + 1 < config.memSize := by
    rw [config_stackBase] at h
    rw [config_memSize, State.stackTop]
    omega
  change execRet s = _
  rw [execRet, if_neg (Nat.not_lt.mpr h), readWord_inside .read s hin]
  rfl

theorem sp_sub_two_toNat (h : config.stackLimit + 2 ≤ s.sp.toNat) : (s.sp - 2).toNat = s.sp.toNat - 2 := by
  rw [config_stackLimit] at h
  bv_omega

theorem sp_add_two_toNat (h : s.sp.toNat + 2 ≤ config.stackBase) : (s.sp + 2).toNat = s.sp.toNat + 2 := by
  rw [config_stackBase] at h
  bv_omega

/-! ### CLS -/

theorem cls_stores (s : State) : ∃ m, StoredRun config.fbBase (List.replicate config.fbSize 0#8) s m ∧
    exec .cls s = .next ((((s.setMem m).emit .clear).emit .present).advance 2) := by
  obtain ⟨m, hm, hend⟩ := storeBytes_inside (s := s) (a := config.fbBase) (bs := List.replicate config.fbSize 0#8)
    (by rw [List.length_replicate]; exact config_valid.fbFits)
  refine ⟨m, hm, ?_⟩
  change execCls s = _
  rw [execCls, hend, Effect.finish_done]

/-! ### JP -/

theorem jp_self {nnn : Addr12} (h : zextAddr nnn = s.pc) : exec (.jp nnn) s = .next (s.setStatus .halted) := execJp_self h

theorem jp_away {nnn : Addr12} (h : zextAddr nnn ≠ s.pc) : exec (.jp nnn) s = .next (s.setPc (zextAddr nnn)) := execJp_away h

theorem zextAddr_toNat (nnn : Addr12) : (zextAddr nnn).toNat = nnn.toNat := (zextAddr_eq_iff nnn _).mp rfl

end Sys2Proof.Machine
end

section
/-! What an instruction may change on any path, and the ways it can end, said once for all instructions: the table of writes
(spec/10_state.md R15, R21; spec/20_memory.md R36, R41) with the end of the step (spec/40_control_flow.md R60;
spec/60_exceptions.md R92, R93). -/

namespace Sys2Proof.Machine

/-! ### The frame -/

/-- `t` differs from `s` at most in what instruction `i` may write, in PC and in the status. -/
structure Frame (i : Instr) (s t : State) : Prop where
  regs : KeepsRegs (fun r => i.writesReg r = true) s t
  bytes : KeepsBytes (i.storesTo s) s t
  addr : i.writesI = false → t.i = s.i
  stack : i.writesSp = false → t.sp = s.sp
  rng : i.writesRng = false → t.rng = s.rng
  progLen : t.progLen = s.progLen
  calls : ∃ calls, t.render = s.render ++ calls ∧ (i.rendersCalls = false → calls = []) ∧ ∀ c ∈ calls, CallOnScreen c
  memory : Memory.wf s.mem = true → Memory.wf t.mem = true

namespace Frame

variable {i : Instr} {s t : State}

theorem refl (i : Instr) (s : State) : Frame i s s where
  regs _ _ := rfl
  bytes _ _ := rfl
  addr _ := rfl
  stack _ := rfl
  rng _ := rfl
  progLen := rfl
  calls := ⟨[], (List.append_nil _).symm, fun _ => rfl, fun _ hc => absurd hc List.not_mem_nil⟩
  memory := id

theorem setPc (h : Frame i s t) (w : Word) : Frame i s (t.setPc w) := { h with }

theorem advance (h : Frame i s t) (adv : Word) : Frame i s (t.advance adv) := h.setPc _

theorem setStatus (h : Frame i s t) (x : Status) : Frame i s (t.setStatus x) := { h with }

theorem setI (h : Frame i s t) (w : Word) (hi : i.writesI = true) : Frame i s (t.setI w) :=
  { h with addr := fun hn => absurd (hi.symm.trans hn) Bool.true_eq_false.mp }

theorem setSp (h : Frame i s t) (w : Word) (hi : i.writesSp = true) : Frame i s (t.setSp w) :=
  { h with stack := fun hn => absurd (hi.symm.trans hn) Bool.true_eq_false.mp }

theorem setRng (h : Frame i s t) (d : DWord) (hi : i.writesRng = true) : Frame i s (t.setRng d) :=
  { h with rng := fun hn => absurd (hi.symm.trans hn) Bool.true_eq_false.mp }

theorem setReg (h : Frame i s t) {r : RegIdx} (b : Byte) (hi : i.writesReg r = true) : Frame i s (t.setReg r b) :=
  { h with
    regs := fun q hq => by
      have hqr : q ≠ r := by rintro rfl; exact hq hi
      rw [State.reg_setReg_other t b hqr, h.regs q hq] }

theorem setRegThenFlag (h : Frame i s t) {r : RegIdx} (b f : Byte) (hi : i.writesReg r = true) (hvf : i.writesReg vf = true) :
    Frame i s (t.setRegThenFlag r b f) := (h.setReg b hi).setReg f hvf

theorem emit (h : Frame i s t) (c : RenderCall) (hi : i.rendersCalls = true) (hc : CallOnScreen c) : Frame i s (t.emit c) := by
  obtain ⟨calls, hrender, -, hcalls⟩ := h.calls
  refine { h with calls := ⟨calls ++ [c], ?_, fun hn => absurd (hi.symm.trans hn) Bool.true_eq_false.mp, ?_⟩ }
  · rw [State.emit_render, hrender, List.append_assoc]
  · intro d hd
    obtain hd | hd := List.mem_append.mp hd
    · exact hcalls d hd
    · exact List.mem_singleton.mp hd ▸ hc

/-- From the start, a run of stores to bytes that the instruction may store to. -/
theorem storedRun {a : Nat} {bs : List Byte} {m : Memory} (hm : StoredRun a bs s m)
    (hi : ∀ j, j < bs.length → i.storesTo s (a + j)) : Frame i s (s.setMem m) :=
  { refl i s with
    bytes := hm.keepsBytes fun j hj _ => hi j hj
    memory := hm.wf }

/-- From the start, a block of registers loaded. -/
theorem loadedBlock {x : RegIdx} {v : Vector Byte 16} (hv : LoadedBlock x s v) (hi : ∀ r, r ≤ x → i.writesReg r = true) :
    Frame i s { s with v := v } :=
  { refl i s with regs := fun r hr => hv.keeps r fun hrx => hr (hi r hrx) }

/-- From the start, a piece of a draw. -/
theorem drawKeeps {x y : RegIdx} {n : Nat} {calls : List RenderCall} (hk : DrawKeeps s t)
    (hbytes : ∀ a, ¬ CoveredByte (s.reg x).toNat (s.reg y).toNat n a → t.byteAt a = s.byteAt a)
    (hrender : t.render = s.render ++ calls) (hcalls : ∀ c ∈ calls, CallOnScreen c) : Frame (.drw x y n) s t where
  regs q hq := hk.regs q fun hvf => hq (beq_iff_eq.mpr hvf)
  bytes := hbytes
  addr _ := hk.i
  stack _ := hk.sp
  rng _ := hk.rng
  progLen := hk.progLen
  calls := ⟨calls, hrender, nofun, hcalls⟩
  memory := hk.wf

end Frame

theorem storesTo_call {nnn : Addr12} {s : State} (j : Nat) (hj : j < 2) : (Instr.call nnn).storesTo s (s.pushAddr + j) := by
  obtain rfl | rfl : j = 0 ∨ j = 1 := by omega
  · exact .inl rfl
  · exact .inr rfl

/-! ### The ends of an instruction -/

/-- Where PC can stand when `i` completes, not having halted (R60). -/
def NextPc : Instr → State → Word → Prop
  | .jp nnn, _, pc | .call nnn, _, pc => pc.toNat = nnn.toNat
  | .ret, s, pc => pc = s.poppedWord
  | .seImm _ _, s, pc | .sneImm _ _, s, pc | .seReg _ _, s, pc => pc = s.pc + 2 ∨ pc = s.pc + 4
  | .cls, s, pc | .ldImm _ _, s, pc | .addImm _ _, s, pc | .ldReg _ _, s, pc | .orReg _ _, s, pc | .andReg _ _, s, pc
  | .xorReg _ _, s, pc | .addReg _ _, s, pc | .subReg _ _, s, pc | .shr _ _, s, pc | .subnReg _ _, s, pc | .shl _ _, s, pc
  | .ldI _, s, pc | .rnd _ _, s, pc | .drw _ _ _, s, pc | .addI _, s, pc | .storeBlock _, s, pc | .loadBlock _, s, pc =>
    pc = s.pc + 2

/-- The faults that an instruction can raise from `s` (R92; the write by CALL is entry 29). -/
inductive Raises (s : State) : Instr → EngineFault → Prop
  | callOverflow (nnn : Addr12) (h : s.sp.toNat < config.stackLimit + 2) : Raises s (.call nnn) (.stackOverflow s.sp s.pc)
  | retUnderflow (h : config.stackBase < s.sp.toNat + 2) : Raises s .ret (.stackUnderflow s.sp s.pc)
  | callWrite (nnn : Addr12) (a : Nat) (ha : config.memSize ≤ a) (h : config.stackBase < s.sp.toNat) :
      Raises s (.call nnn) (.memoryOutOfRange a .write s.pc)
  | storeWrite (x : RegIdx) (a : Nat) (ha : config.memSize ≤ a) : Raises s (.storeBlock x) (.memoryOutOfRange a .write s.pc)
  | loadRead (x : RegIdx) (a : Nat) (ha : config.memSize ≤ a) : Raises s (.loadBlock x) (.memoryOutOfRange a .read s.pc)
  | drawRead (x y : RegIdx) (n a : Nat) (ha : config.memSize ≤ a) :
      Raises s (.drw x y n) (.memoryOutOfRange a .read s.pc)

theorem Raises.faultPc {s : State} {i : Instr} {f : EngineFault} (h : Raises s i f) : faultPc f = s.pc := by
  cases h <;> rfl

/-- The ways instruction `i` can end from `s`. -/
inductive Ends (i : Instr) (s : State) : Outcome → Prop
  | completes {t : State} (hframe : Frame i s t) (hstatus : t.status = s.status) (hpc : NextPc i s t.pc) : Ends i s (.next t)
  | halts {nnn : Addr12} (hi : i = .jp nnn) (hself : zextAddr nnn = s.pc) : Ends i s (.next (s.setStatus .halted))
  | raises {f : EngineFault} {t : State} (hf : Raises s i f) (hframe : Frame i s t) (hspecials : KeepsSpecials s t)
      (hpc : t.pc = s.pc) : Ends i s (.next (t.setStatus (.faulted f)))

theorem keepsSpecials_rfl (s : State) : KeepsSpecials s s := ⟨rfl, rfl, rfl, rfl⟩

theorem DrawKeeps.keepsSpecials {s t : State} (h : DrawKeeps s t) : KeepsSpecials s t := ⟨h.i, h.sp, h.rng, h.progLen⟩

/-- A fault raised before any effect. -/
theorem Ends.raises_at_once {i : Instr} {s : State} {f : EngineFault} (hf : Raises s i f) : Ends i s (raise f s) :=
  .raises hf (.refl i s) (keepsSpecials_rfl s) rfl

/-! ### The end of each instruction -/

section
variable (s : State)

theorem jp_ends (nnn : Addr12) : Ends (.jp nnn) s (exec (.jp nnn) s) := by
  by_cases hself : zextAddr nnn = s.pc
  · rw [jp_self hself]
    exact .halts rfl hself
  · rw [jp_away hself]
    exact .completes ((Frame.refl _ s).setPc _) rfl (zextAddr_toNat nnn)

theorem ret_ends : Ends .ret s (exec .ret s) := by
  by_cases h : s.sp.toNat + 2 ≤ config.stackBase
  · rw [ret_pops h]
    exact .completes (((Frame.refl _ s).setPc _).setSp _ rfl) rfl rfl
  · rw [ret_underflows (Nat.lt_of_not_le h)]
    exact .raises_at_once (.retUnderflow (Nat.lt_of_not_le h))

theorem call_ends (nnn : Addr12) : Ends (.call nnn) s (exec (.call nnn) s) := by
  by_cases hlow : s.sp.toNat < config.stackLimit + 2
  · rw [call_overflows nnn hlow]
    exact .raises_at_once (.callOverflow nnn hlow)
  by_cases hhigh : s.sp.toNat ≤ config.memSize
  · obtain ⟨m, hm, hend⟩ := call_pushes nnn (Nat.le_of_not_lt hlow) hhigh
    rw [hend]
    exact .completes (((Frame.storedRun hm storesTo_call).setSp _ rfl).setPc _) rfl (zextAddr_toNat nnn)
  · obtain ⟨m, hm, hend⟩ := call_past_end nnn (Nat.lt_of_not_le hhigh)
    rw [hend]
    have hbase : config.stackBase < s.sp.toNat := Nat.lt_of_le_of_lt config_valid.stackFits (Nat.lt_of_not_le hhigh)
    exact .raises (.callWrite nnn _ (Nat.le_max_right _ _) hbase) (.storedRun hm storesTo_call) (keepsSpecials_rfl _) rfl

theorem cls_ends : Ends .cls s (exec .cls s) := by
  obtain ⟨m, hm, hend⟩ := cls_stores s
  rw [hend]
  have hstores : ∀ j, j < (List.replicate config.fbSize 0#8).length → Instr.cls.storesTo s (config.fbBase + j) :=
    fun j hj => ⟨Nat.le_add_right _ j, Nat.add_lt_add_left (by rwa [List.length_replicate] at hj) _⟩
  exact .completes ((((Frame.storedRun hm hstores).emit .clear rfl trivial).emit .present rfl trivial).advance 2) rfl rfl

/-- The values stored by a store block of V[0]..V[x] go to addresses it may store to. -/
theorem storeBlock_frame {x : RegIdx} {m : Memory} (hm : StoredRun (s.indexed 0) (s.blockValues x) s m) :
    Frame (.storeBlock x) s (s.setMem m) :=
  { Frame.refl _ s with
    bytes := hm.keepsBytes_indexed fun r hr _ => ⟨r, hr, rfl⟩
    memory := hm.wf }

theorem storeBlock_ends (x : RegIdx) : Ends (.storeBlock x) s (exec (.storeBlock x) s) := by
  by_cases h : s.indexed x.val < config.memSize
  · obtain ⟨m, hm, hend⟩ := storeBlock_inside h
    rw [hend, advanceBlock_eq]
    exact .completes (((storeBlock_frame s hm).setI _ rfl).advance 2) rfl rfl
  · obtain ⟨m, hm, hend⟩ := storeBlock_past_end (Nat.le_of_not_lt h)
    rw [hend]
    exact .raises (.storeWrite x _ (Nat.le_max_right _ _)) (storeBlock_frame s hm) (keepsSpecials_rfl _) rfl

theorem loadBlock_ends (x : RegIdx) : Ends (.loadBlock x) s (exec (.loadBlock x) s) := by
  have hwrites : ∀ r, r ≤ x → (Instr.loadBlock x).writesReg r = true := fun r hr => decide_eq_true hr
  by_cases h : s.indexed x.val < config.memSize
  · obtain ⟨v, hv, hend⟩ := loadBlock_inside h
    rw [hend, advanceBlock_eq]
    exact .completes (((Frame.loadedBlock hv hwrites).setI _ rfl).advance 2) rfl rfl
  · obtain ⟨v, hv, hend⟩ := loadBlock_past_end (Nat.le_of_not_lt h)
    rw [hend]
    exact .raises (.loadRead x _ (Nat.le_max_right _ _)) (Frame.loadedBlock hv hwrites) (keepsSpecials_rfl _) rfl

theorem drw_ends (x y : RegIdx) (n : Nat) : Ends (.drw x y n) s (exec (.drw x y n) s) := by
  obtain ⟨t, calls, hend, hkeeps, hbytes, hrender, hcalls⟩ := drawRows_effects (s.indexed 0) (s.reg x).toNat (s.reg y).toNat n
    (List.range n) true s fun _ => List.mem_range.mp
  have hframe := Frame.drawKeeps hkeeps hbytes hrender hcalls
  change Ends _ s (execDrw x y n s)
  obtain hend | ⟨a, ha, hend⟩ := hend <;> rw [execDrw, hend]
  · exact .completes ((hframe.emit .present rfl trivial).advance 2) hkeeps.status (congrArg (· + 2) hkeeps.pc)
  · exact .raises (.drawRead x y n a ha) hframe hkeeps.keepsSpecials hkeeps.pc

theorem skipIf_ends {i : Instr} (taken : Bool) (hpc : ∀ w, w = s.pc + 2 ∨ w = s.pc + 4 → NextPc i s w) :
    Ends i s (skipIf taken s) := by
  refine .completes ((Frame.refl i s).advance _) rfl (hpc _ ?_)
  cases taken
  · exact .inl rfl
  · exact .inr rfl

theorem writeReg_ends {i : Instr} (x : RegIdx) (b : Byte) (hi : i.writesReg x = true) (hpc : NextPc i s (s.pc + 2)) :
    Ends i s (writeReg x b s) :=
  .completes (((Frame.refl i s).setReg b hi).advance 2) rfl hpc

theorem writeRegFlag_ends {i : Instr} (x : RegIdx) (b f : Byte) (hi : ∀ r, i.writesReg r = (r == x || r == vf))
    (hpc : NextPc i s (s.pc + 2)) : Ends i s (writeRegFlag x b f s) := by
  refine .completes (((Frame.refl i s).setRegThenFlag b f ?_ ?_).advance 2) rfl hpc
  · rw [hi, beq_self_eq_true, Bool.true_or]
  · rw [hi, beq_self_eq_true, Bool.or_true]

end

/-- Every instruction ends, from every state, in one of the ways of `Ends`. -/
theorem exec_ends (i : Instr) (s : State) : Ends i s (exec i s) := by
  cases i with
  | cls => exact cls_ends s
  | ret => exact ret_ends s
  | jp nnn => exact jp_ends s nnn
  | call nnn => exact call_ends s nnn
  | seImm | sneImm | seReg => exact skipIf_ends s _ fun _ => id
  | ldImm | addImm | ldReg | orReg | andReg | xorReg => exact writeReg_ends s _ _ (beq_self_eq_true _) rfl
  | addReg | subReg | subnReg | shr | shl => exact writeRegFlag_ends s _ _ _ (fun _ => rfl) rfl
  | ldI | addI => exact .completes (((Frame.refl _ s).setI _ rfl).advance 2) rfl rfl
  | rnd =>
    exact .completes ((((Frame.refl _ s).setRng _ rfl).setReg _ (beq_self_eq_true _)).advance 2) rfl rfl
  | drw x y n => exact drw_ends s x y n
  | storeBlock x => exact storeBlock_ends s x
  | loadBlock x => exact loadBlock_ends s x

theorem exec_frame {i : Instr} {s t : State} (h : exec i s = .next t) : Frame i s t := by
  have hend := exec_ends i s
  rw [h] at hend
  cases hend with
  | completes hframe => exact hframe
  | halts => exact (Frame.refl i s).setStatus _
  | raises _ hframe => exact hframe.setStatus _

/-- Of the ends of a Running engine's instruction, a raise alone leaves it Faulted. -/
theorem exec_faulted {i : Instr} {s t : State} {f : EngineFault} (hs : s.status = .running) (h : exec i s = .next t)
    (ht : t.status = .faulted f) : Raises s i f ∧ KeepsSpecials s t ∧ t.pc = s.pc := by
  have hend := exec_ends i s
  rw [h] at hend
  cases hend with
  | completes _ hstatus =>
    rw [hstatus, hs] at ht
    cases ht
  | halts => cases ht
  | raises hf _ hspecials hpc =>
    cases ht
    exact ⟨hf, hspecials, hpc⟩

theorem step_faulted {s t : State} {f : EngineFault} (h : step s = .next t) (ht : t.status = .faulted f) :
    t.pc = s.pc ∧ faultPc f = s.pc ∧ KeepsSpecials s t := by
  obtain ⟨hs, ⟨g, hfetch, rfl⟩ | ⟨w, e, -, -, rfl⟩ | ⟨w, i, -, -, hexec⟩⟩ := step_cases h
  · obtain ⟨a, -, rfl⟩ := fetch_error hfetch
    cases ht
    exact ⟨rfl, rfl, keepsSpecials_rfl s⟩
  · cases ht
    exact ⟨rfl, rfl, keepsSpecials_rfl s⟩
  · obtain ⟨hraises, hspecials, hpc⟩ := exec_faulted hs hexec ht
    exact ⟨hpc, hraises.faultPc, hspecials⟩

/-! ### prog_len (R23) -/

/-- `t` is `s` with some other prog_len. -/
def ProgLenReplaced (len : Nat) (s t : State) : Prop := t = { s with progLen := len }

theorem progLenReplaced_unobserved (len : Nat) : UnobservedByAll (ProgLenReplaced len) where
  v := by rintro s _ rfl; rfl
  i := by rintro s _ rfl; rfl
  pc := by rintro s _ rfl; rfl
  sp := by rintro s _ rfl; rfl
  mem := by rintro s _ rfl; rfl
  status := by rintro s _ rfl; rfl
  rng := by rintro s _ rfl; rfl
  setReg := by rintro s _ rfl r b; rfl
  setI := by rintro s _ rfl w; rfl
  setPc := by rintro s _ rfl w; rfl
  setSp := by rintro s _ rfl w; rfl
  setMem := by rintro s _ rfl m; rfl
  setStatus := by rintro s _ rfl x; rfl
  setRng := by rintro s _ rfl d; rfl
  emit := by rintro s _ rfl c; rfl

end Sys2Proof.Machine
end

section
/-! The statements about what every instruction may change and how it can end. -/

namespace Sys2Proof.Proofs

open Sys2Proof Sys2Proof.Machine

/-- Settles O36: the frame of every path (`exec_frame`), its general registers. -/
theorem generalRegisterFrame : Obligations.GeneralRegisterFrame := fun _ _ _ h => (exec_frame h).regs

/-- Settles O37: the frame of every path, its bytes. -/
theorem memoryFrame : Obligations.MemoryFrame := fun _ _ _ h => (exec_frame h).bytes

/-- Settles O38: the frame of every path, its special registers. -/
theorem specialRegisterFrame : Obligations.SpecialRegisterFrame := fun _ _ _ h =>
  ⟨(exec_frame h).addr, (exec_frame h).stack, (exec_frame h).rng, (exec_frame h).progLen⟩

/-- Settles O39: the frame of every path, its render calls. -/
theorem renderOutputOnlyGrows : Obligations.RenderOutputOnlyGrows := fun _ _ _ h => (exec_frame h).calls

/-- Settles O40: an instruction that completes moves PC as `NextPc` says, and one that halts or raises keeps it. -/
theorem programCounterChanges : Obligations.ProgramCounterChanges := by
  intro i s t hs h
  have hend := exec_ends i s
  rw [h] at hend
  cases hend with
  | completes _ hstatus hpc =>
    refine .inr ⟨hstatus.trans hs, ?_⟩
    cases i <;> exact hpc
  | halts => exact .inl ⟨nofun, rfl⟩
  | raises _ _ _ hpc => exact .inl ⟨nofun, hpc⟩

/-- Settles O43: the step's own faults change the status alone, and an instruction's fault keeps PC and the special registers
(`exec_faulted`). -/
theorem faultKeepsProgramCounter : Obligations.FaultKeepsProgramCounter := fun _ _ _ h => step_faulted h

/-- Settles O44: a faulted end is a raise, and `Raises` lists the raises. -/
theorem whichInstructionRaisesWhat : Obligations.WhichInstructionRaisesWhat := by
  intro i s t f hs h ht
  obtain ⟨hraises, -, -⟩ := exec_faulted hs h ht
  cases hraises with
  | callOverflow nnn hsp => exact ⟨⟨nnn, rfl⟩, rfl, hsp⟩
  | retUnderflow hsp => exact ⟨rfl, rfl, hsp⟩
  | callWrite nnn a ha hsp => exact ⟨ha, .inl ⟨nnn, rfl, hsp⟩⟩
  | storeWrite x a ha => exact ⟨ha, .inr ⟨x, rfl⟩⟩
  | loadRead x a ha => exact ⟨ha, .inr ⟨x, rfl⟩⟩
  | drawRead x y n a ha => exact ⟨ha, .inl ⟨x, y, n, rfl⟩⟩

/-- Settles O46: every step keeps the relation "the same but for prog_len". -/
theorem programLengthIsNeverRead : Obligations.ProgramLengthIsNeverRead := by
  intro s t len hstep
  obtain ⟨_, hstep', rfl⟩ := (progLenReplaced_unobserved len).step_alike (s := s) rfl hstep
  exact hstep'

end Sys2Proof.Proofs
end

section
/-! The invariant (spec/10_state.md R18; spec/60_exceptions.md R93, R100): kept by every step, and had by every loaded state;
with what construction and boot leave (spec/70_reset_and_hazards.md R104, R105). -/

namespace Sys2Proof.Machine

variable {s t : State}

/-! ### The stack pointer (R18) -/

theorem stackLegal_of_sp_eq (h : StackLegal s) (hsp : t.sp = s.sp) : StackLegal t := by
  unfold StackLegal
  rw [hsp]
  exact h

theorem stackLegal_call {nnn : Addr12} (h : StackLegal s) (hexec : exec (.call nnn) s = .next t) : StackLegal t := by
  obtain ⟨hlow, hhigh, heven⟩ := h
  by_cases hfull : s.sp.toNat < config.stackLimit + 2
  · rw [call_overflows nnn hfull] at hexec
    cases hexec
    exact ⟨hlow, hhigh, heven⟩
  · have hslot := Nat.le_of_not_lt hfull
    obtain ⟨m, -, hend⟩ := call_pushes nnn hslot (hhigh.trans config_valid.stackFits)
    rw [hend] at hexec
    cases hexec
    simp only [StackLegal, State.setPc_sp, State.setSp_sp, sp_sub_two_toNat hslot]
    omega

theorem stackLegal_ret (h : StackLegal s) (hexec : exec .ret s = .next t) : StackLegal t := by
  obtain ⟨hlow, hhigh, heven⟩ := h
  by_cases hentry : s.sp.toNat + 2 ≤ config.stackBase
  · rw [ret_pops hentry] at hexec
    cases hexec
    simp only [StackLegal, State.setSp_sp, sp_add_two_toNat hentry]
    omega
  · rw [ret_underflows (Nat.lt_of_not_le hentry)] at hexec
    cases hexec
    exact ⟨hlow, hhigh, heven⟩

/-- CALL and RET move SP by 2 within the stack's bounds, and no other instruction moves it. -/
theorem stackLegal_exec {i : Instr} (h : StackLegal s) (hexec : exec i s = .next t) : StackLegal t := by
  cases hi : i.writesSp with
  | false => exact stackLegal_of_sp_eq h ((exec_frame hexec).stack hi)
  | true =>
    cases i with
    | call nnn => exact stackLegal_call h hexec
    | ret => exact stackLegal_ret h hexec
    | _ => cases hi

/-! ### The step -/

/-- The parts of the invariant that do not speak of the status are kept by every step. -/
structure InvCore (s : State) : Prop where
  memory : Memory.wf s.mem = true
  stack : StackLegal s
  calls : ∀ c ∈ s.render, CallOnScreen c
  program : s.progLen ≤ config.memSize - config.progBase

theorem invCore_of_inv (h : Inv s) : InvCore s := ⟨h.memory, h.stack, h.calls, h.program⟩

theorem InvCore.exec {i : Instr} (h : InvCore s) (hexec : exec i s = .next t) : InvCore t := by
  have hframe := exec_frame hexec
  obtain ⟨calls, hrender, -, hcalls⟩ := hframe.calls
  refine ⟨hframe.memory h.memory, stackLegal_exec h.stack hexec, fun c hc => ?_, hframe.progLen ▸ h.program⟩
  rw [hrender, List.mem_append] at hc
  exact hc.elim (h.calls c) (hcalls c)

theorem InvCore.step (h : InvCore s) (hstep : step s = .next t) : InvCore t := by
  obtain ⟨-, ⟨_, _, rfl⟩ | ⟨_, _, _, _, rfl⟩ | ⟨_, _, _, _, hexec⟩⟩ := step_cases hstep
  · exact ⟨h.memory, h.stack, h.calls, h.program⟩
  · exact ⟨h.memory, h.stack, h.calls, h.program⟩
  · exact h.exec hexec

/-- A step that halts leaves PC at the jump to itself (`step_halts`), one that faults leaves PC at what faulted
(`step_faulted`). -/
theorem inv_step (h : Inv s) (hstep : step s = .next t) : Inv t := by
  obtain ⟨hmemory, hstack, hcalls, hprogram⟩ := (invCore_of_inv h).step hstep
  refine ⟨hmemory, hstack, hcalls, hprogram, fun ht => ?_, fun f ht => ?_⟩
  · obtain ⟨nnn, hfetch, hself, rfl⟩ := step_halts hstep ht
    exact ⟨nnn, hfetch, hself⟩
  · obtain ⟨hpc, hf, -⟩ := step_faulted hstep ht
    rw [hf, hpc]

/-! ### Construction, load and boot -/

theorem inv_of_running (hcore : InvCore s) (hs : s.status = .running) : Inv s :=
  ⟨hcore.memory, hcore.stack, hcore.calls, hcore.program, fun h => absurd (hs.symm.trans h) nofun,
    fun _ h => absurd (hs.symm.trans h) nofun⟩

theorem stackLegal_construct (seed : DWord) : StackLegal (State.construct seed) :=
  (by decide : config.stackLimit ≤ config.stackBase ∧ config.stackBase ≤ config.stackBase ∧
    (config.stackBase - config.stackBase) % 2 = 0)

theorem invCore_construct (seed : DWord) : InvCore (State.construct seed) :=
  ⟨construct_mem_wf seed, stackLegal_construct seed, fun _ hc => absurd hc List.not_mem_nil, Nat.zero_le _⟩

/-- What boot does with a program that fits (R105). -/
theorem boot_fits {program : List Byte} (seed : DWord) (h : program.length ≤ config.memSize - config.progBase) : ∃ m,
    boot seed program = .next (((State.construct seed).setMem m).setProgLen program.length) ∧
    (∀ a, Memory.lookup m a = if config.progBase ≤ a then (program[a - config.progBase]?).getD 0 else 0) ∧
    Memory.wf m = true := by
  obtain ⟨m, hcopy, hlookup, hwf⟩ := copyBytes_spec program config.progBase (State.construct seed)
  have hfits : config.progBase + program.length ≤ config.memSize := by
    have := config_valid.progFits
    omega
  refine ⟨m, ?_, hlookup, hwf hfits (construct_mem_wf seed)⟩
  rw [boot, load, if_neg (Nat.not_lt.mpr h), hcopy]

theorem boot_too_long {program : List Byte} (seed : DWord) (h : config.memSize - config.progBase < program.length) :
    boot seed program = .refused (.loadFailure program.length) := if_pos h

theorem inv_of_loaded (h : Loaded s) : Inv s := by
  obtain ⟨seed, program, hboot⟩ := h
  by_cases hlen : program.length ≤ config.memSize - config.progBase
  · obtain ⟨m, hend, -, hwf⟩ := boot_fits seed hlen
    rw [hend] at hboot
    cases hboot
    have hcore := invCore_construct seed
    exact inv_of_running ⟨hwf, hcore.stack, hcore.calls, hlen⟩ rfl
  · rw [boot_too_long seed (Nat.lt_of_not_le hlen)] at hboot
    cases hboot

theorem inv_of_reaches (h : Inv s) (hreach : Reaches s t) : Inv t := by
  induction hreach with
  | refl => exact h
  | step _ _ _ hstep ih => exact inv_step ih hstep

/-! ### Canonical memories -/

/-- A canonical list whose first address is past `a` lists nothing at `a`; so lists that read the same have the same first
entry, and by induction the same rest. -/
theorem Memory.ext_of_wfFrom {lo : Nat} {m m' : Memory} (h : Memory.wfFrom lo m = true) (h' : Memory.wfFrom lo m' = true)
    (heq : ∀ a, Memory.lookup m a = Memory.lookup m' a) : m = m' := by
  induction m generalizing lo m' with
  | nil =>
    cases m' with
    | nil => rfl
    | cons c m' =>
      obtain ⟨b, w⟩ := c
      obtain ⟨-, -, hw, -⟩ := (Memory.wfFrom_cons lo b w m').mp h'
      have hb := heq b
      rw [Memory.lookup_cons, if_pos rfl] at hb
      exact absurd hb.symm hw
  | cons c m ih =>
    obtain ⟨a, v⟩ := c
    obtain ⟨hlo, -, hv, hm⟩ := (Memory.wfFrom_cons lo a v m).mp h
    have ha := heq a
    rw [Memory.lookup_cons, if_pos rfl] at ha
    cases m' with
    | nil => exact absurd ha hv
    | cons c' m' =>
      obtain ⟨b, w⟩ := c'
      obtain ⟨hlo', -, hw, hm'⟩ := (Memory.wfFrom_cons lo b w m').mp h'
      have hb := heq b
      rw [Memory.lookup_cons, Memory.lookup_cons, if_pos (rfl : b = b)] at hb
      obtain hlt | rfl | hgt := Nat.lt_trichotomy a b
      · have hbelow : Memory.wfFrom b ((b, w) :: m') = true :=
          (Memory.wfFrom_cons b b w m').mpr ⟨Nat.le_refl b, ((Memory.wfFrom_cons lo b w m').mp h').2⟩
        rw [Memory.lookup_below hbelow hlt] at ha
        exact absurd ha hv
      · rw [Memory.lookup_cons, if_pos rfl] at ha
        rw [ha, ih hm hm' fun k => ?_]
        by_cases hk : k = a
        · rw [hk, Memory.lookup_below hm (Nat.lt_succ_self a), Memory.lookup_below hm' (Nat.lt_succ_self a)]
        · have hrest := heq k
          rwa [Memory.lookup_cons, Memory.lookup_cons, if_neg hk, if_neg hk] at hrest
      · rw [if_neg (Nat.ne_of_lt hgt), Memory.lookup_below hm (Nat.lt_succ_of_lt hgt)] at hb
        exact absurd hb.symm hw

end Sys2Proof.Machine
end

section
/-! The statements about the invariant, construction and boot. -/

namespace Sys2Proof.Proofs

open Sys2Proof Sys2Proof.Machine

/-- Settles O48: memory, SP, the render output and prog_len by the frame of every instruction, the halt and the fault by how a
step comes to them (`inv_step`). -/
theorem everyStepKeepsTheInvariant : Obligations.EveryStepKeepsTheInvariant := fun _ _ h hstep => inv_step h hstep

/-- Settles O49: reset is a construction. -/
theorem invariantAtReset : Obligations.InvariantAtReset := inv_of_running (invCore_construct config.seed) rfl

/-- Settles O50: the load changes memory and prog_len alone, and keeps the canonical form. -/
theorem invariantAfterBoot : Obligations.InvariantAfterBoot := fun _ => inv_of_loaded

/-- Settles O51: by induction on the steps of the run. -/
theorem everyReachableStateIsLegal : Obligations.EveryReachableStateIsLegal := fun _ _ h hreach =>
  inv_of_reaches (inv_of_loaded h) hreach

/-- Settles O52: the register file is sixteen zeros, and memory lists nothing. -/
theorem resetValues : Obligations.ResetValues := by
  refine ⟨fun seed r a => ⟨?_, rfl, rfl⟩, fun seed => ⟨rfl, rfl, rfl, rfl, rfl⟩, rfl⟩
  simp only [State.reg, State.construct, Vector.getElem_replicate]

/-- Settles O53: the copy writes the program's bytes alone (`boot_fits`). -/
theorem bootLoadsTheProgram : Obligations.BootLoadsTheProgram := by
  refine fun seed program => ⟨fun hlen => ?_, boot_too_long seed⟩
  obtain ⟨m, hend, hlookup, -⟩ := boot_fits seed hlen
  refine ⟨_, hend, rfl, fun k hk => ?_, fun a ha => ?_, rfl⟩
  · refine (hlookup (config.progBase + k)).trans ?_
    rw [if_pos (Nat.le_add_right _ k), Nat.add_sub_cancel_left, List.getElem?_eq_getElem hk, Option.getD_some]
  · refine (hlookup a).trans ?_
    obtain hbelow | hpast := ha
    · rw [if_neg (Nat.not_le.mpr hbelow)]
    · rw [if_pos (by omega), List.getElem?_eq_none (by omega), Option.getD_none]

/-- Settles O55: by induction on the lists (`Memory.ext_of_wfFrom`). -/
theorem canonicalMemoriesWithEqualReadsAreEqual : Obligations.CanonicalMemoriesWithEqualReadsAreEqual := fun _ _ =>
  Memory.ext_of_wfFrom

end Sys2Proof.Proofs
end

section
/-! The results of the instructions but the display's, in the arithmetic of the rules (spec/40_control_flow.md,
spec/41_alu.md, spec/42_address_block.md, spec/43_random.md). -/

namespace Sys2Proof.Machine

/-! ### What an instruction that lists no writes keeps -/

section
variable {i : Instr} {s t : State} (h : Frame i s t)
include h

theorem Frame.keepsAllRegs (hi : ∀ r, i.writesReg r = false) : KeepsRegs (fun _ => False) s t := fun r _ =>
  h.regs r fun hr => absurd ((hi r).symm.trans hr) nofun

theorem Frame.keepsSpecials (hI : i.writesI = false) (hSp : i.writesSp = false) (hRng : i.writesRng = false) :
    KeepsSpecials s t := ⟨h.addr hI, h.stack hSp, h.rng hRng, h.progLen⟩

end

/-! ### The arithmetic-logic unit -/

/-- A flagless form whose value has the property `P`. -/
theorem writeReg_result {P : Byte → Prop} {b : Byte} (x : RegIdx) (s : State) (hP : P b) : ∃ t, writeReg x b s = .next t ∧
    P (t.reg x) ∧ Advanced s t ∧ ChangesOnlyRegs (fun r => r = x) s t := by
  obtain ⟨t, hend, rfl, hrest⟩ := writeReg_spec x b s
  exact ⟨t, hend, hP, hrest⟩

/-- A flag-writing form whose value has the property `P` and whose flag has `Q`. -/
theorem writeRegFlag_result {P Q : Byte → Prop} {b f : Byte} (x : RegIdx) (s : State) (hP : P b) (hQ : Q f) :
    ∃ t, writeRegFlag x b f s = .next t ∧ (x ≠ 15 → P (t.reg x)) ∧ Q (t.reg 15) ∧ Advanced s t ∧
      ChangesOnlyRegs (fun r => r = x ∨ r = 15) s t := by
  refine ⟨(s.setRegThenFlag x b f).advance 2, rfl, fun hx => ?_, ?_, advanced_advance _, fun r hr => ?_,
    fun _ _ => rfl, ⟨rfl, rfl, rfl, rfl⟩, rfl, rfl⟩
  · rw [State.advance_reg, State.setRegThenFlag, vf, State.reg_setReg_other _ _ hx, State.reg_setReg_same]
    exact hP
  · rw [State.advance_reg, State.setRegThenFlag, vf, State.reg_setReg_same]
    exact hQ
  · rw [not_or] at hr
    rw [State.advance_reg, State.setRegThenFlag, vf, State.reg_setReg_other _ _ hr.2, State.reg_setReg_other _ _ hr.1]

theorem flag_toNat (p : Prop) [Decidable p] : (flag (decide p)).toNat = if p then 1 else 0 := by
  by_cases hp : p
  · rw [if_pos hp, decide_eq_true hp, flag, if_pos rfl]
    rfl
  · rw [if_neg hp, decide_eq_false hp, flag, if_neg Bool.false_ne_true]
    rfl

theorem carryFlag_toNat (a b : Byte) : (carryFlag a b).toNat = if 256 ≤ a.toNat + b.toNat then 1 else 0 := flag_toNat _

theorem notBorrowFlag_toNat (a b : Byte) : (notBorrowFlag a b).toNat = if a.toNat < b.toNat then 0 else 1 := by
  rw [notBorrowFlag, flag_toNat, ← ite_not]
  simp only [Nat.not_le]

/-- A byte difference, modulo 256 (R9). -/
theorem sub_toNat_cast (a b : Byte) : ((a - b).toNat : Int) = ((a.toNat : Int) - b.toNat) % 256 := by
  have ha := a.isLt
  have hb := b.isLt
  rw [BitVec.toNat_sub]
  omega

/-- A flag made of one bit. -/
theorem flag_getLsbD_toNat (a : Byte) (k : Nat) : (flag (a.getLsbD k)).toNat = a.toNat / 2 ^ k % 2 := by
  have hbit : a.getLsbD k = decide (a.toNat / 2 ^ k % 2 = 1) := by
    rw [← BitVec.testBit_toNat, Nat.testBit_eq_decide_div_mod_eq]
  rw [hbit, flag_toNat]
  split <;> omega

theorem shiftOutRight_toNat (a : Byte) : (shiftOutRight a).toNat = a.toNat % 2 := by
  rw [shiftOutRight, flag_getLsbD_toNat, Nat.pow_zero, Nat.div_one]

theorem shiftOutLeft_toNat (a : Byte) : (shiftOutLeft a).toNat = a.toNat / 128 := by
  have ha := a.isLt
  rw [shiftOutLeft, flag_getLsbD_toNat]
  omega

theorem shiftRight_one_toNat (a : Byte) : (a >>> 1).toNat = a.toNat / 2 := by
  rw [BitVec.toNat_ushiftRight, Nat.shiftRight_eq_div_pow, Nat.pow_one]

theorem shiftLeft_one_toNat (a : Byte) : (a <<< 1).toNat = a.toNat * 2 % 256 := by
  rw [BitVec.toNat_shiftLeft, Nat.shiftLeft_eq, Nat.pow_one]

/-! ### Skips -/

theorem skipIf_result (p : Prop) [Decidable p] {taken : Bool} (htaken : taken = decide p) (s : State) :
    ∃ t, skipIf taken s = .next t ∧ t.pc.toNat = (s.pc.toNat + (if p then 4 else 2)) % 2 ^ 16 ∧
      ChangesOnlyRegs (fun _ => False) s t := by
  refine ⟨_, rfl, ?_, fun _ _ => rfl, fun _ _ => rfl, ⟨rfl, rfl, rfl, rfl⟩, rfl, rfl⟩
  rw [State.advance_pc, BitVec.toNat_add, htaken]
  by_cases hp : p
  · rw [if_pos hp, if_pos (decide_eq_true hp)]
    rfl
  · rw [if_neg hp, if_neg (by rw [decide_eq_false hp]; exact Bool.false_ne_true)]
    rfl

theorem beq_eq_decide_toNat (a b : Byte) : (a == b) = decide (a.toNat = b.toNat) := by
  rw [Bool.eq_iff_iff, beq_iff_eq, decide_eq_true_iff, BitVec.toNat_inj]

/-! ### The return address -/

theorem highByte_toNat (w : Word) : (highByte w).toNat = w.toNat / 256 := by
  have hw := w.isLt
  rw [highByte, extractLsb'_toNat]
  omega

theorem lowByte_toNat (w : Word) : (lowByte w).toNat = w.toNat % 256 := extractLsb'_zero_toNat w 8

section
variable {s : State} {m : Memory} (hm : PushedReturn s m) (hfits : s.pushAddr + 1 < config.memSize)
include hm hfits

theorem PushedReturn.high : (s.setMem m).byteAt s.pushAddr = highByte (s.pc + 2) :=
  hm.byteAt_of_getElem? (j := 0) rfl (Nat.lt_of_succ_lt hfits)

theorem PushedReturn.low : (s.setMem m).byteAt (s.pushAddr + 1) = lowByte (s.pc + 2) :=
  hm.byteAt_of_getElem? (j := 1) rfl hfits

end

/-! ### The generator (R85) -/

theorem xor_middle_swap {w : Nat} {a a' b b' : BitVec w} (h : a ^^^ a' = b ^^^ b') : a ^^^ b = a' ^^^ b' := by
  calc a ^^^ b = (a ^^^ a') ^^^ (a' ^^^ b) := by rw [BitVec.xor_assoc, ← BitVec.xor_assoc a', BitVec.xor_self, BitVec.zero_xor]
    _ = (b ^^^ b') ^^^ (b ^^^ a') := by rw [h, BitVec.xor_comm a']
    _ = a' ^^^ b' := by
      rw [BitVec.xor_comm b b', BitVec.xor_assoc, ← BitVec.xor_assoc b, BitVec.xor_self, BitVec.zero_xor, BitVec.xor_comm]

/-- Below each bit of a left shift stands a lower bit, and at last a 0. -/
theorem eq_zero_of_eq_shiftLeft {w k : Nat} {d : BitVec w} (hk : 0 < k) (h : d = d <<< k) : d = 0#w := by
  have hbits : ∀ n, d.getLsbD n = false := fun n => by
    induction n using Nat.strong_induction_on with
    | _ n ih =>
      rw [h, BitVec.getLsbD_shiftLeft]
      by_cases hn : n < k
      · rw [decide_eq_true hn, Bool.not_true, Bool.and_false, Bool.false_and]
      · rw [ih (n - k) (by omega), Bool.and_false]
  exact BitVec.eq_of_getLsbD_eq fun n _ => by rw [hbits n, BitVec.getLsbD_zero]

theorem eq_zero_of_eq_shiftRight {w k : Nat} {d : BitVec w} (hk : 0 < k) (h : d = d >>> k) : d = 0#w := by
  have hdiv : d.toNat = d.toNat / 2 ^ k := by rw [← Nat.shiftRight_eq_div_pow, ← BitVec.toNat_ushiftRight, ← h]
  apply BitVec.eq_of_toNat_eq
  by_contra hne
  have hlt := Nat.div_lt_self (Nat.pos_of_ne_zero hne) (Nat.one_lt_two_pow (Nat.pos_iff_ne_zero.mp hk))
  omega

theorem xor_shiftLeft_injective {w k : Nat} (hk : 0 < k) : Function.Injective fun d : BitVec w => d ^^^ (d <<< k) := by
  intro a b hab
  have hxor := xor_middle_swap hab
  rw [← BitVec.shiftLeft_xor_distrib] at hxor
  exact BitVec.xor_eq_zero_iff.mp (eq_zero_of_eq_shiftLeft hk hxor)

theorem xor_shiftRight_injective {w k : Nat} (hk : 0 < k) : Function.Injective fun d : BitVec w => d ^^^ (d >>> k) := by
  intro a b hab
  have hxor := xor_middle_swap hab
  rw [← BitVec.ushiftRight_xor_distrib] at hxor
  exact BitVec.xor_eq_zero_iff.mp (eq_zero_of_eq_shiftRight hk hxor)

/-- The generator is its three stages, each of which loses nothing. -/
theorem xorshift64_injective : Function.Injective xorshift64 :=
  (xor_shiftLeft_injective (k := 17) (by decide)).comp
    ((xor_shiftRight_injective (k := 7) (by decide)).comp (xor_shiftLeft_injective (k := 13) (by decide)))

theorem xorshift64_zero : xorshift64 0 = 0 := by decide

end Sys2Proof.Machine
end

section
/-! The statements about results: the arithmetic-logic unit, control flow, the address block and the generator. -/

namespace Sys2Proof.Proofs

open Sys2Proof Sys2Proof.Machine

/-- Settles O12: the four forms end in `writeReg`, and the bitwise operations act on each bit. -/
theorem assignmentAndBitwiseOperations : Obligations.AssignmentAndBitwiseOperations := fun x y s =>
  ⟨writeReg_spec x (s.reg y) s,
   writeReg_result (P := fun b => ∀ k, b.getLsbD k = ((s.reg x).getLsbD k || (s.reg y).getLsbD k)) x s
     fun _ => BitVec.getLsbD_or,
   writeReg_result (P := fun b => ∀ k, b.getLsbD k = ((s.reg x).getLsbD k && (s.reg y).getLsbD k)) x s
     fun _ => BitVec.getLsbD_and,
   writeReg_result (P := fun b => ∀ k, b.getLsbD k = ((s.reg x).getLsbD k != (s.reg y).getLsbD k)) x s
     fun _ => BitVec.getLsbD_xor⟩

/-- Settles O13: the three forms end in `writeRegFlag`, which writes the flag last, of operands read first. -/
theorem addAndSubtractWithFlag : Obligations.AddAndSubtractWithFlag := fun x y s =>
  ⟨writeRegFlag_result (P := fun b => b.toNat = ((s.reg x).toNat + (s.reg y).toNat) % 256)
     (Q := fun f => f.toNat = if 256 ≤ (s.reg x).toNat + (s.reg y).toNat then 1 else 0) x s
     (BitVec.toNat_add _ _) (carryFlag_toNat _ _),
   writeRegFlag_result (P := fun b => (b.toNat : Int) = ((s.reg x).toNat - (s.reg y).toNat : Int) % 256)
     (Q := fun f => f.toNat = if (s.reg x).toNat < (s.reg y).toNat then 0 else 1) x s
     (sub_toNat_cast _ _) (notBorrowFlag_toNat _ _),
   writeRegFlag_result (P := fun b => (b.toNat : Int) = ((s.reg y).toNat - (s.reg x).toNat : Int) % 256)
     (Q := fun f => f.toNat = if (s.reg y).toNat < (s.reg x).toNat then 0 else 1) x s
     (sub_toNat_cast _ _) (notBorrowFlag_toNat _ _)⟩

/-- Settles O14: the two shifts end in `writeRegFlag`, with the bit that the shift puts out as the flag. -/
theorem shiftsWithFlag : Obligations.ShiftsWithFlag := fun x _ s =>
  ⟨writeRegFlag_result (P := fun b => b.toNat = (s.reg x).toNat / 2) (Q := fun f => f.toNat = (s.reg x).toNat % 2) x s
     (shiftRight_one_toNat _) (shiftOutRight_toNat _),
   writeRegFlag_result (P := fun b => b.toNat = (s.reg x).toNat * 2 % 256) (Q := fun f => f.toNat = (s.reg x).toNat / 128) x s
     (shiftLeft_one_toNat _) (shiftOutLeft_toNat _)⟩

/-- Settles O15: the three skips end in `skipIf`, on the comparison of two bytes. -/
theorem skipsAdvanceByFourOrTwo : Obligations.SkipsAdvanceByFourOrTwo := by
  intro x y nn s
  refine ⟨skipIf_result _ (beq_eq_decide_toNat _ _) s, ?_, skipIf_result _ (beq_eq_decide_toNat _ _) s⟩
  have hne : (s.reg x != nn) = decide (¬ (s.reg x).toNat = nn.toNat) := by
    rw [bne, beq_eq_decide_toNat, decide_not]
  obtain ⟨t, hend, hpc, hframe⟩ := skipIf_result _ hne s
  rw [ite_not] at hpc
  exact ⟨t, hend, hpc, hframe⟩

/-- Settles O16: the two branches of the jump; its target as a number decides which. -/
theorem jumpOrHalt : Obligations.JumpOrHalt := by
  intro nnn s
  by_cases hself : zextAddr nnn = s.pc
  · have hpc := (zextAddr_eq_iff nnn s.pc).mp hself
    exact ⟨_, jp_self hself, hpc, fun _ => rfl, fun hne => absurd hpc hne, fun _ _ => rfl, fun _ _ => rfl,
      keepsSpecials_rfl s, rfl⟩
  · have hpc := mt (zextAddr_eq_iff nnn s.pc).mpr hself
    exact ⟨_, jp_away hself, zextAddr_toNat nnn, fun heq => absurd heq hpc, fun _ => rfl, fun _ _ => rfl, fun _ _ => rfl,
      keepsSpecials_rfl s, rfl⟩

/-- Settles O17: the push with a free slot inside memory (`call_pushes`). -/
theorem callPushesReturnAddress : Obligations.CallPushesReturnAddress := by
  intro nnn s hlow hhigh
  have hfits := pushAddr_inside hlow hhigh
  obtain ⟨m, hm, hend⟩ := call_pushes nnn hlow hhigh
  have hframe := exec_frame hend
  refine ⟨_, hend, zextAddr_toNat nnn, sp_sub_two_toNat hlow, ?_, ?_, hframe.bytes, hframe.keepsAllRegs fun _ => rfl,
    ⟨rfl, rfl⟩, rfl, rfl, rfl⟩
  · rw [State.setPc_byteAt, State.setSp_byteAt, PushedReturn.high hm hfits, highByte_toNat, BitVec.toNat_add]
    rfl
  · rw [State.setPc_byteAt, State.setSp_byteAt, PushedReturn.low hm hfits, lowByte_toNat, BitVec.toNat_add,
      Nat.mod_mod_of_dvd _ (by decide)]
    rfl

/-- Settles O18: the pop with an entry on the stack (`ret_pops`). -/
theorem returnPopsAddress : Obligations.ReturnPopsAddress := fun _ h =>
  ⟨_, ret_pops h, wordOfBytes_toNat _ _, sp_add_two_toNat h, fun _ _ => rfl, fun _ _ => rfl, ⟨rfl, rfl⟩, rfl, rfl, rfl⟩

/-- Settles O19: both checks come before any effect. -/
theorem stackOverflowAndUnderflowFault : Obligations.StackOverflowAndUnderflowFault := fun nnn _ =>
  ⟨call_overflows nnn, ret_underflows⟩

/-- Settles O20: the two bytes at SP - 2 are the halves of the return address, and the pop puts them together again. -/
theorem callThenReturn : Obligations.CallThenReturn := by
  intro nnn s t u hlow hhigh hcall hsp hbyte0 hbyte1
  have hmem := hhigh.trans config_valid.stackFits
  have hfits := pushAddr_inside hlow hmem
  obtain ⟨m, hm, hend⟩ := call_pushes nnn hlow hmem
  rw [hend] at hcall
  cases hcall
  have hsp' : u.sp.toNat = s.pushAddr := by rw [hsp]; exact sp_sub_two_toNat hlow
  have hentry : u.sp.toNat + 2 ≤ config.stackBase := by
    rw [config_stackLimit] at hlow
    rw [hsp', State.pushAddr]
    omega
  refine ⟨_, ret_pops hentry, ?_, ?_⟩
  · have hword : u.poppedWord = wordOfBytes (highByte (s.pc + 2)) (lowByte (s.pc + 2)) := by
      rw [State.poppedWord, hsp', hbyte0, hbyte1]
      exact congrArg₂ wordOfBytes (PushedReturn.high hm hfits) (PushedReturn.low hm hfits)
    rw [State.setSp_pc, State.setPc_pc, hword, wordOfBytes_split]
  · rw [State.setSp_sp, hsp]
    exact BitVec.sub_add_cancel s.sp 2

/-- Settles O21: both forms write I and advance; the byte is zero-extended, so its number is the same. -/
theorem addressRegisterResults : Obligations.AddressRegisterResults := by
  refine fun nnn x _ => ⟨⟨_, rfl, zextAddr_toNat nnn, advanced_advance _, fun _ _ => rfl, fun _ _ => rfl, ⟨rfl, rfl⟩, rfl, rfl,
    rfl⟩, ⟨_, rfl, ?_, advanced_advance _, fun _ _ => rfl, fun _ _ => rfl, ⟨rfl, rfl⟩, rfl, rfl, rfl⟩⟩
  rw [State.advance_i, State.setI_i, BitVec.toNat_add, zextByte, BitVec.toNat_setWidth_of_le (by decide)]

/-- Settles O22: the run of stores inside memory (`storeBlock_inside`). -/
theorem storeBlockResult : Obligations.StoreBlockResult := by
  intro x s hin
  obtain ⟨m, hm, hend⟩ := storeBlock_inside hin
  have hframe := exec_frame hend
  refine ⟨_, hend, fun r hr => ?_, advanceBlock_i_toNat x _, advanced_advance _, hframe.bytes,
    hframe.keepsAllRegs fun _ => rfl, ⟨rfl, rfl⟩, rfl, rfl, rfl⟩
  exact hm.byteAt_indexed hr (Nat.lt_of_le_of_lt (Nat.add_le_add_left hr _) hin)

/-- Settles O23: the run of loads inside memory (`loadBlock_inside`). -/
theorem loadBlockResult : Obligations.LoadBlockResult := by
  intro x s hin
  obtain ⟨v, hv, hend⟩ := loadBlock_inside hin
  refine ⟨_, hend, fun r hr => ?_, advanceBlock_i_toNat x _, advanced_advance _, hv.keeps, fun _ _ => rfl, ⟨rfl, rfl⟩, rfl, rfl,
    rfl⟩
  refine (hv.loads r hr).trans (if_pos ?_)
  exact Nat.lt_of_le_of_lt (Nat.add_le_add_left hr _) hin

/-- Settles O24: the registers whose address lies inside memory are among V[0]..V[x], as x's own lies outside. -/
theorem blockTransferPastTheEndFaults : Obligations.BlockTransferPastTheEndFaults := by
  intro x s hout
  have hle : ∀ r : RegIdx, s.indexed r.val < config.memSize → r ≤ x := fun r hr =>
    Fin.le_def.mpr (Nat.le_of_add_le_add_left (Nat.le_of_lt (Nat.lt_of_lt_of_le hr hout)))
  constructor
  · obtain ⟨m, hm, hend⟩ := storeBlock_past_end hout
    exact ⟨_, hend, rfl, fun r hr => hm.byteAt_indexed (hle r hr) hr, hm.keepsBytes_indexed fun r _ hin => ⟨hin, r, rfl⟩,
      fun _ _ => rfl, keepsSpecials_rfl _, rfl, rfl⟩
  · obtain ⟨v, hv, hend⟩ := loadBlock_past_end hout
    refine ⟨_, hend, rfl, fun r hr => (hv.loads r (hle r hr)).trans (if_pos hr), fun r hr => ?_, fun _ _ => rfl,
      keepsSpecials_rfl _, rfl, rfl⟩
    by_cases hrx : r ≤ x
    · exact (hv.loads r hrx).trans (if_neg hr)
    · exact hv.keeps r hrx

/-- Settles O25: the store leaves V[r] at I + r, which the load reads there. -/
theorem blockStoreThenLoad : Obligations.BlockStoreThenLoad := by
  intro x s t u hin hstore hi hbytes
  obtain ⟨t', hstore', hstored, hti, -⟩ := storeBlockResult x s hin
  rw [hstore] at hstore'
  cases hstore'
  have hindexed := State.indexed_congr hi
  obtain ⟨w, hload, hloaded, hwi, -⟩ := loadBlockResult x u (by rw [hindexed]; exact hin)
  refine ⟨w, hload, fun r hr => ?_, BitVec.eq_of_toNat_eq ?_, hti⟩
  · rw [hloaded r hr, hindexed, hbytes r hr, hstored r hr]
  · rw [hwi, hti, hi]

/-- Settles O26: RNG takes the generator's next value, and V[x] its low byte under the mask. -/
theorem randomByte : Obligations.RandomByte := by
  intro x nn s
  refine ⟨_, rfl, ?_, ?_, advanced_advance _, fun r hr => State.reg_setReg_other _ _ hr, fun _ _ => rfl, ⟨rfl, rfl⟩, rfl, rfl,
    rfl⟩
  · rintro _ _ rfl rfl
    rfl
  · rw [State.advance_reg, State.reg_setReg_same, BitVec.toNat_and, BitVec.toNat_setWidth]
    rfl

/-- Settles O27: an injection of a finite type into itself is onto. -/
theorem generatorIsABijection : Obligations.GeneratorIsABijection :=
  ⟨Finite.injective_iff_bijective.mp xorshift64_injective, fun _ =>
    ⟨fun h => xorshift64_injective (h.trans xorshift64_zero.symm), fun h => h ▸ xorshift64_zero⟩⟩

end Sys2Proof.Proofs
end

section
/-! The display (spec/44_display.md R88 to R91): where a pixel is, what one more row of a draw does, and the picture that a
whole draw leaves when it leaves its own sprite as it was. -/

namespace Sys2Proof.Machine

/-! ### Pixels (R42) -/

theorem fbMask_toNat (px : Nat) : (fbMask px).toNat = 2 ^ (7 - px % 8) := by
  have hmasks : ∀ r : Fin 8, (0x80#8 >>> r.val).toNat = 2 ^ (7 - r.val) := by decide
  exact hmasks ⟨px % 8, Nat.mod_lt _ (by decide)⟩

theorem mod_eq_of_fbMask_eq {px qx : Nat} (h : fbMask px = fbMask qx) : px % 8 = qx % 8 := by
  have hpow := congrArg BitVec.toNat h
  rw [fbMask_toNat, fbMask_toNat] at hpow
  have hexp := Nat.pow_right_injective (Nat.le_refl 2) hpow
  omega

theorem fbByte_inFramebuffer {px py : Nat} (h : OnScreen px py) :
    fbByte px py = config.fbBase + py * 8 + px / 8 ∧ InFramebuffer (fbByte px py) := by
  obtain ⟨hx, hy⟩ := h
  rw [config_screenW] at hx
  rw [config_screenH] at hy
  rw [InFramebuffer, fbByte_eq, config_fbBase, config_fbSize]
  omega

/-- A pixel depends on its own byte alone. -/
theorem pixelOn_congr {s t : State} {px py : Nat} (h : t.byteAt (fbByte px py) = s.byteAt (fbByte px py)) :
    t.pixelOn px py = s.pixelOn px py := by
  rw [State.pixelOn, State.pixelOn, h]

/-- Each bit of a framebuffer byte is a pixel of the screen: where the pictures agree the bytes agree. -/
theorem byteAt_fbByte_of_pixelOn {s t : State} {px py : Nat} (h : OnScreen px py)
    (hpix : ∀ qx qy, OnScreen qx qy → t.pixelOn qx qy = s.pixelOn qx qy) :
    t.byteAt (fbByte px py) = s.byteAt (fbByte px py) := by
  apply BitVec.eq_of_getLsbD_eq
  intro k hk
  have hx := h.1
  rw [config_screenW] at hx
  have hon : OnScreen (px / 8 * 8 + (7 - k)) py := ⟨by rw [config_screenW]; omega, h.2⟩
  have hbyte : fbByte (px / 8 * 8 + (7 - k)) py = fbByte px py := by
    rw [fbByte_eq, fbByte_eq]
    omega
  have hbit := hpix _ _ hon
  rw [pixelOn_eq, pixelOn_eq, hbyte, show 7 - (px / 8 * 8 + (7 - k)) % 8 = k by omega] at hbit
  exact hbit

/-! ### One row -/

/-- Column `col` of a row with byte `sprite` at `vx` is a set bit of the sprite on the screen. -/
def rowHit (sprite : Byte) (vx col : Nat) : Bool := decide (col < 8 ∧ vx + col < config.screenW) && sprite.getLsbD (7 - col)

theorem rowHit_iff {sprite : Byte} {vx col : Nat} :
    rowHit sprite vx col = true ↔ col < 8 ∧ vx + col < config.screenW ∧ sprite.getLsbD (7 - col) = true := by
  rw [rowHit, Bool.and_eq_true, decide_eq_true_iff, and_assoc]

theorem rowHit_eq_colHit {sprite : Byte} {vx col : Nat} (h : col < 8) : rowHit sprite vx col = colHit sprite vx col := by
  rw [rowHit, colHit, spriteBit, decide_eq_decide.mpr (and_iff_right h)]

theorem exists_rowHit_iff {sprite : Byte} {vx : Nat} {P : Nat → Prop} : (∃ col, rowHit sprite vx col = true ∧ P col) ↔
    ∃ col, 0 ≤ col ∧ col < 0 + 8 ∧ colHit sprite vx col = true ∧ P col := by
  refine exists_congr fun col => ⟨fun ⟨hhit, hP⟩ => ?_, fun ⟨_, hcol, hhit, hP⟩ => ?_⟩
  · have hcol := (rowHit_iff.mp hhit).1
    exact ⟨Nat.zero_le _, by omega, rowHit_eq_colHit hcol ▸ hhit, hP⟩
  · exact ⟨rowHit_eq_colHit (by omega) ▸ hhit, hP⟩

/-- `u` is what drawing a row with byte `sprite` at (vx, py) leaves of `s` (R90, the loop over the columns). -/
structure RowDrawn (sprite : Byte) (vx py : Nat) (s u : State) : Prop where
  pixel : ∀ qx qy, OnScreen qx qy →
    u.pixelOn qx qy = (s.pixelOn qx qy != (decide (qy = py ∧ vx ≤ qx) && rowHit sprite vx (qx - vx)))
  bytes : ∀ a, (∀ col, rowHit sprite vx col = true → a ≠ fbByte (vx + col) py) → u.byteAt a = s.byteAt a
  collides : (∃ col, rowHit sprite vx col = true ∧ s.pixelOn (vx + col) py = true) → u.reg vf = 1#8
  misses : (¬ ∃ col, rowHit sprite vx col = true ∧ s.pixelOn (vx + col) py = true) → u.reg vf = s.reg vf
  render : u.render = s.render ++ ((List.range 8).filter (rowHit sprite vx)).map fun col => toggleCall (vx + col) py s

theorem drawCols_row (sprite : Byte) (vx : Nat) {py : Nat} (hy : py < config.screenH) (s : State) :
    ∃ u, drawCols sprite vx py (List.range 8) s = .done u ∧ RowDrawn sprite vx py s u := by
  obtain ⟨u, hend, -, hpixel, hbytes, hcollides, hmisses, hrender⟩ := drawCols_spec sprite vx py hy 8 0 s
  refine ⟨u, hend, fun qx qy hq => ?_, fun a ha => hbytes a fun col _ hcol hhit => ?_,
    fun h => hcollides (exists_rowHit_iff.mp h), fun h => hmisses (mt exists_rowHit_iff.mpr h), ?_⟩
  · rw [hpixel qx qy hq]
    congr 1
    have hx := hq.1
    rw [rowHit, spriteBit, ← Bool.and_assoc, ← Bool.decide_and]
    congr 1
    rw [decide_eq_decide]
    omega
  · exact ha col (rowHit_eq_colHit (by omega) ▸ hhit)
  · rw [hrender, ← range_eight]
    congr 2
    exact List.filter_congr fun col hcol => (rowHit_eq_colHit (List.mem_range.mp hcol)).symm

/-! ### One more row -/

/-- The state in which row `n` of a draw is drawn, from what the rows before it left: VF is cleared before the first
(decision D8). -/
def rowStart (n : Nat) (t : State) : State := if n = 0 then t.setReg vf 0#8 else t

theorem rowStart_byteAt (n : Nat) (t : State) (a : Nat) : (rowStart n t).byteAt a = t.byteAt a := by
  unfold rowStart
  split <;> rfl

theorem rowStart_pixelOn (n : Nat) (t : State) (px py : Nat) : (rowStart n t).pixelOn px py = t.pixelOn px py :=
  pixelOn_congr (rowStart_byteAt n t _)

theorem rowStart_render (n : Nat) (t : State) : (rowStart n t).render = t.render := by
  unfold rowStart
  split <;> rfl

theorem rowStart_vf_iff (n : Nat) (t : State) : (rowStart n t).reg vf = 1#8 ↔ 0 < n ∧ t.reg vf = 1#8 := by
  unfold rowStart
  split
  · next hn =>
    rw [State.reg_setReg_same, hn]
    exact iff_of_false (by decide) fun h => absurd h.1 (Nat.lt_irrefl 0)
  · next hn => exact (and_iff_right (Nat.pos_of_ne_zero hn)).symm

/-- Every sprite byte that a draw of `n` rows from `base` at `vy` reads is in memory. -/
def RowsReadable (base vy n : Nat) : Prop := ∀ r, ReadsRow vy n r → base + r < config.memSize

theorem RowsReadable.pred {base vy n : Nat} (h : RowsReadable base vy (n + 1)) : RowsReadable base vy n := fun r hr =>
  h r ⟨Nat.lt_succ_of_lt hr.1, hr.2⟩

section
variable {base vx vy n : Nat} {s t : State} (ht : drawRows base vx vy (List.range n) true s = .done t)
include ht

/-- `drawRows_snoc` for the draws of DRW, whose rows are counted from 0. -/
theorem drawRows_range_succ : drawRows base vx vy (List.range (n + 1)) true s =
    if n ≠ 0 ∧ config.screenH ≤ vy + (n - 1) then .done t
    else withByte (base + n) t fun sprite =>
      if config.screenH ≤ vy + n then .done t else drawCols sprite vx (vy + n) (List.range 8) (rowStart n t) := by
  rw [List.range_eq_range'] at ht
  have hsnoc := drawRows_snoc base vx vy n 0 true s t ht
  rw [← List.range_eq_range', Nat.zero_add] at hsnoc
  rw [hsnoc]
  simp only [Bool.true_and, beq_iff_eq, rowStart]

theorem drawRows_succ_past_bottom (hread : RowsReadable base vy (n + 1)) (hpast : config.screenH ≤ vy + n) :
    drawRows base vx vy (List.range (n + 1)) true s = .done t := by
  rw [drawRows_range_succ ht]
  by_cases hstopped : n ≠ 0 ∧ config.screenH ≤ vy + (n - 1)
  · rw [if_pos hstopped]
  · rw [if_neg hstopped, withByte_inside t _ (hread n ⟨Nat.lt_succ_self n, by omega⟩), if_pos hpast]

theorem drawRows_succ_on_screen (hread : RowsReadable base vy (n + 1)) (hon : vy + n < config.screenH) : ∃ u,
    drawRows base vx vy (List.range (n + 1)) true s = .done u ∧
    RowDrawn (t.byteAt (base + n)) vx (vy + n) (rowStart n t) u := by
  obtain ⟨u, hend, hu⟩ := drawCols_row (t.byteAt (base + n)) vx hon (rowStart n t)
  refine ⟨u, ?_, hu⟩
  rw [drawRows_range_succ ht, if_neg (by omega), withByte_inside t _ (hread n ⟨Nat.lt_succ_self n, by omega⟩),
    if_neg (Nat.not_le.mpr hon), hend]

/-- A draw that reads a row outside memory raises there, with the rows before it drawn. -/
theorem drawRows_raises {n' : Nat} (hreads : ReadsRow vy n' n) (hout : config.memSize ≤ base + n) :
    drawRows base vx vy (List.range n') true s = .raised (.memoryOutOfRange (base + n) .read t.pc) t := by
  obtain ⟨hn, hgoes⟩ := hreads
  obtain ⟨k, rfl⟩ := Nat.exists_eq_add_of_le (Nat.succ_le_of_lt hn)
  rw [List.range_add]
  apply drawRows_append_raised
  rw [drawRows_range_succ ht, if_neg (by omega), withByte_outside t _ hout]

end

/-- The collision flag after one more row. -/
theorem RowDrawn.vf_iff {sprite : Byte} {vx py n : Nat} {t u : State} (h : RowDrawn sprite vx py (rowStart n t) u) :
    u.reg vf = 1#8 ↔ (0 < n ∧ t.reg vf = 1#8) ∨ ∃ col, rowHit sprite vx col = true ∧ t.pixelOn (vx + col) py = true := by
  have hcollides := h.collides
  have hmisses := h.misses
  simp only [rowStart_pixelOn] at hcollides hmisses
  by_cases hhit : ∃ col, rowHit sprite vx col = true ∧ t.pixelOn (vx + col) py = true
  · exact iff_of_true (hcollides hhit) (.inr hhit)
  · rw [hmisses hhit, rowStart_vf_iff, or_iff_left hhit]

/-! ### The picture -/

/-- A draw of `n` rows at (vx, vy) with the sprite `bytes` has a set bit on the on-screen pixel (px, py). -/
def Lit (bytes : Nat → Byte) (vx vy n px py : Nat) : Prop :=
  DrawCovers vx vy n px py ∧ (bytes (py - vy)).getLsbD (7 - (px - vx)) = true

section
variable {bytes : Nat → Byte} {vx vy n px py : Nat}

theorem Lit.onScreen (h : Lit bytes vx vy n px py) : OnScreen px py := h.1.1

theorem Lit.row_lt (h : Lit bytes vx vy n px py) : py < vy + n := h.1.2.2.2.2

theorem Lit.mono (h : Lit bytes vx vy n px py) {n' : Nat} (hn : n ≤ n') : Lit bytes vx vy n' px py := by
  obtain ⟨⟨hon, h1, h2, h3, h4⟩, hbit⟩ := h
  exact ⟨⟨hon, h1, h2, h3, by omega⟩, hbit⟩

/-- Rows past the bottom light nothing. -/
theorem lit_succ_past_bottom (hpast : config.screenH ≤ vy + n) : Lit bytes vx vy (n + 1) px py ↔ Lit bytes vx vy n px py := by
  refine ⟨fun ⟨⟨hon, h1, h2, h3, h4⟩, hbit⟩ => ?_, fun h => h.mono (Nat.le_succ n)⟩
  have hy := hon.2
  exact ⟨⟨hon, h1, h2, h3, by omega⟩, hbit⟩

/-- The last row lights what its byte hits. -/
theorem lit_last_row (hon : OnScreen px (vy + n)) :
    Lit bytes vx vy (n + 1) px (vy + n) ↔ vx ≤ px ∧ rowHit (bytes n) vx (px - vx) = true := by
  have hx := hon.1
  rw [rowHit_iff, Lit, DrawCovers, Nat.add_sub_cancel_left]
  constructor
  · rintro ⟨⟨-, h1, h2, -, -⟩, hbit⟩
    exact ⟨h1, by omega, by omega, hbit⟩
  · rintro ⟨h1, h2, -, hbit⟩
    exact ⟨⟨hon, h1, by omega, by omega, by omega⟩, hbit⟩

/-- The other rows are those of the draw of one row less. -/
theorem lit_succ_of_ne (hrow : py ≠ vy + n) : Lit bytes vx vy (n + 1) px py ↔ Lit bytes vx vy n px py := by
  refine ⟨fun ⟨⟨hon, h1, h2, h3, h4⟩, hbit⟩ => ?_, fun h => h.mono (Nat.le_succ n)⟩
  exact ⟨⟨hon, h1, h2, h3, by omega⟩, hbit⟩

/-- A hit of the last row lights its pixel. -/
theorem lit_of_rowHit (hon : vy + n < config.screenH) {col : Nat} (h : rowHit (bytes n) vx col = true) :
    Lit bytes vx vy (n + 1) (vx + col) (vy + n) := by
  obtain ⟨-, hx, -⟩ := rowHit_iff.mp h
  refine (lit_last_row ⟨hx, hon⟩).mpr ⟨Nat.le_add_right vx col, ?_⟩
  rwa [Nat.add_sub_cancel_left]

end

/-- The sprite bytes of the processed rows are the same in both states. -/
def SameSprite (base vy n : Nat) (s t : State) : Prop :=
  ∀ r, r < n → vy + r < config.screenH → t.byteAt (base + r) = s.byteAt (base + r)

/-- `t` shows the picture of `s` with the draw of `n` rows of `bytes` XORed into it, and VF tells of a collision. -/
structure Drawn (bytes : Nat → Byte) (vx vy n : Nat) (s t : State) : Prop where
  pixel : ∀ px py, OnScreen px py → (t.pixelOn px py = true ↔ (s.pixelOn px py = true ↔ ¬ Lit bytes vx vy n px py))
  collision : 0 < n → vy < config.screenH →
    (t.reg vf = 1#8 ↔ ∃ px py, Lit bytes vx vy n px py ∧ s.pixelOn px py = true)

section
variable {bytes : Nat → Byte} {base vx vy n : Nat} {s t u : State}

theorem Drawn.pixel_of_not_lit (h : Drawn bytes vx vy n s t) {px py : Nat} (hon : OnScreen px py)
    (hlit : ¬ Lit bytes vx vy n px py) : t.pixelOn px py = s.pixelOn px py := by
  rw [Bool.eq_iff_iff, h.pixel px py hon, iff_true_right hlit]

theorem drawn_zero (bytes : Nat → Byte) (vx vy : Nat) (s : State) : Drawn bytes vx vy 0 s s where
  pixel px py _ := by
    have hlit : ¬ Lit bytes vx vy 0 px py := fun h => by
      have hlow := h.1.2.2.2.1
      have hhigh := h.row_lt
      omega
    rw [iff_true_right hlit]
  collision hn := absurd hn (Nat.lt_irrefl 0)

theorem Drawn.succ_past_bottom (h : Drawn bytes vx vy n s t) (hpast : config.screenH ≤ vy + n) :
    Drawn bytes vx vy (n + 1) s t := by
  have hlit : ∀ px py, Lit bytes vx vy (n + 1) px py ↔ Lit bytes vx vy n px py := fun _ _ => lit_succ_past_bottom hpast
  refine ⟨fun px py hon => ?_, fun _ hv => ?_⟩
  · rw [hlit]
    exact h.pixel px py hon
  · simp only [hlit]
    exact h.collision (by omega) hv

/-- One more row on the screen, its byte as `bytes` has it: the pixels of the row are XORed, for no row before it lit them, and
the other pixels stay. -/
theorem Drawn.succ_on_screen (h : Drawn bytes vx vy n s t) (hon : vy + n < config.screenH)
    (hu : RowDrawn (bytes n) vx (vy + n) (rowStart n t) u) : Drawn bytes vx vy (n + 1) s u := by
  have hfresh : ∀ px, OnScreen px (vy + n) → t.pixelOn px (vy + n) = s.pixelOn px (vy + n) := fun px hpx =>
    h.pixel_of_not_lit hpx fun hlit => Nat.lt_irrefl _ hlit.row_lt
  refine ⟨fun px py hp => ?_, fun _ hv => ?_⟩
  · have hpix := hu.pixel px py hp
    rw [rowStart_pixelOn] at hpix
    by_cases hrow : py = vy + n
    · subst hrow
      rw [hpix, hfresh px hp, lit_last_row hp, bne_iff_ne, Ne, Bool.eq_iff_iff, Bool.and_eq_true, decide_eq_true_iff,
        and_iff_right rfl]
      exact not_iff.trans (not_iff_comm.trans iff_comm)
    · rw [hpix, decide_eq_false (fun hp => hrow hp.1), Bool.false_and, Bool.bne_false, h.pixel px py hp, lit_succ_of_ne hrow]
  · rw [hu.vf_iff]
    constructor
    · rintro (⟨hn, hvf⟩ | ⟨col, hhit, hcol⟩)
      · obtain ⟨px, py, hlit, hpix⟩ := (h.collision hn hv).mp hvf
        exact ⟨px, py, hlit.mono (Nat.le_succ n), hpix⟩
      · have hlit := lit_of_rowHit (bytes := bytes) hon hhit
        rw [hfresh _ hlit.onScreen] at hcol
        exact ⟨_, _, hlit, hcol⟩
    · rintro ⟨px, py, hlit, hpix⟩
      by_cases hrow : py = vy + n
      · subst hrow
        obtain ⟨hle, hhit⟩ := (lit_last_row hlit.onScreen).mp hlit
        refine .inr ⟨px - vx, hhit, ?_⟩
        rw [Nat.add_sub_cancel' hle, hfresh px hlit.onScreen, hpix]
      · have hlit' := (lit_succ_of_ne hrow).mp hlit
        have hn : 0 < n := by
          have hlow := hlit'.1.2.2.2.1
          have hhigh := hlit'.row_lt
          omega
        exact .inl ⟨hn, (h.collision hn hv).mpr ⟨px, py, hlit', hpix⟩⟩

/-- The rows of a draw that leaves its sprite as it was. By induction on the rows: the draw of one row less has left the sprite
too, for each byte is drawn to by one row at most (`drawRows_unchanged_earlier`). -/
theorem drawRows_drawn (hread : RowsReadable base vy n) (ht : drawRows base vx vy (List.range n) true s = .done t)
    (hsame : SameSprite base vy n s t) (hbytes : ∀ r, r < n → vy + r < config.screenH → s.byteAt (base + r) = bytes r) :
    Drawn bytes vx vy n s t := by
  induction n generalizing t with
  | zero =>
    cases ht
    exact drawn_zero bytes vx vy s
  | succ n ih =>
    obtain ⟨t', -, ht', -⟩ := drawRows_done base vx vy s n hread.pred
    have hearlier : SameSprite base vy (n + 1) s t' := fun r hr hon =>
      drawRows_unchanged_earlier base vx vy n (base + r) hread ht' ht (hsame r hr hon)
    have hdrawn := ih hread.pred ht' (fun r hr => hearlier r (Nat.lt_succ_of_lt hr)) fun r hr =>
      hbytes r (Nat.lt_succ_of_lt hr)
    by_cases hon : vy + n < config.screenH
    · obtain ⟨u, hend, hu⟩ := drawRows_succ_on_screen ht' hread hon
      rw [ht] at hend
      cases hend
      rw [hearlier n (Nat.lt_succ_self n) hon, hbytes n (Nat.lt_succ_self n) hon] at hu
      exact hdrawn.succ_on_screen hon hu
    · have hpast := Nat.le_of_not_lt hon
      rw [drawRows_succ_past_bottom ht' hread hpast] at ht
      cases ht
      exact hdrawn.succ_past_bottom hpast

/-! ### The same draw again (R91) -/

/-- A draw that leaves its sprite as it was lights no pixel of a sprite byte, for a lit pixel changes. -/
theorem Drawn.fbByte_ne_of_lit (h : Drawn bytes vx vy n s t) (hsame : SameSprite base vy n s t) {px py r : Nat}
    (hlit : Lit bytes vx vy n px py) (hr : r < n) (hon : vy + r < config.screenH) : base + r ≠ fbByte px py := by
  intro heq
  have hbyte := hsame r hr hon
  rw [heq] at hbyte
  have hpix := h.pixel px py hlit.onScreen
  rw [pixelOn_congr hbyte] at hpix
  have hflip : ¬ (s.pixelOn px py = true ↔ ¬ Lit bytes vx vy n px py) := fun hiff => hiff.mp (hpix.mpr hiff) hlit
  exact hflip (iff_of_false (fun hs => hflip (hpix.mp hs)) (not_not_intro hlit))

/-- Where no lit pixel lies in a sprite byte, the draw leaves its sprite as it was. By induction on the rows drawn, of which
each reads the byte that `bytes` has for it. -/
theorem drawRows_sameSprite {m : Nat}
    (hapart : ∀ px py r, Lit bytes vx vy n px py → r < n → vy + r < config.screenH → base + r ≠ fbByte px py)
    (hbytes : ∀ r, r < n → vy + r < config.screenH → s.byteAt (base + r) = bytes r) (hm : m ≤ n)
    (hread : RowsReadable base vy m) (ht : drawRows base vx vy (List.range m) true s = .done t) : SameSprite base vy n s t := by
  induction m generalizing t with
  | zero =>
    cases ht
    exact fun _ _ _ => rfl
  | succ m ih =>
    obtain ⟨t', -, ht', -⟩ := drawRows_done base vx vy s m hread.pred
    have hearlier := ih (Nat.le_of_succ_le hm) hread.pred ht'
    by_cases hon : vy + m < config.screenH
    · obtain ⟨u, hend, hu⟩ := drawRows_succ_on_screen ht' hread hon
      rw [ht] at hend
      cases hend
      rw [hearlier m hm hon, hbytes m hm hon] at hu
      intro r hr hronscreen
      rw [hu.bytes (base + r) fun col hhit => hapart _ _ r ((lit_of_rowHit hon hhit).mono hm) hr hronscreen, rowStart_byteAt]
      exact hearlier r hr hronscreen
    · rw [drawRows_succ_past_bottom ht' hread (Nat.le_of_not_lt hon)] at ht
      cases ht
      exact hearlier

/-- Twice the same lit pixels: the first picture again. -/
theorem Drawn.twice {u w : State} (h : Drawn bytes vx vy n s t) (hmem : u.mem = t.mem) (h' : Drawn bytes vx vy n u w)
    {px py : Nat} (hon : OnScreen px py) : w.pixelOn px py = s.pixelOn px py := by
  have hu : u.pixelOn px py = t.pixelOn px py := pixelOn_congr (congrArg (Memory.lookup · _) hmem)
  have hw := h'.pixel px py hon
  rw [hu, h.pixel px py hon] at hw
  rw [Bool.eq_iff_iff, hw]
  tauto

/-- The lit pixels that were on before the second draw are those that the first turned on. -/
theorem Drawn.turned_on_iff (h : Drawn bytes vx vy n s t) {px py : Nat} :
    Lit bytes vx vy n px py ∧ t.pixelOn px py = true ↔ OnScreen px py ∧ s.pixelOn px py = false ∧ t.pixelOn px py = true := by
  rw [← Bool.not_eq_true (s.pixelOn px py)]
  constructor
  · rintro ⟨hlit, ht⟩
    have hiff := (h.pixel px py hlit.onScreen).mp ht
    exact ⟨hlit.onScreen, fun hs => hiff.mp hs hlit, ht⟩
  · rintro ⟨hon, hs, ht⟩
    have hiff := (h.pixel px py hon).mp ht
    exact ⟨by_contra fun hlit => hs (hiff.mpr hlit), ht⟩

end

/-! ### DRW -/

/-- What DRW leaves when its rows leave `t`. -/
theorem drw_completes {x y : RegIdx} {n : Nat} {s t : State}
    (h : drawRows (s.indexed 0) (s.reg x).toNat (s.reg y).toNat (List.range n) true s = .done t) :
    exec (.drw x y n) s = .next ((t.emit .present).advance 2) :=
  congrArg (Effect.finish · fun t => (t.emit .present).advance 2) h

theorem drw_raises {x y : RegIdx} {n : Nat} {f : EngineFault} {s t : State}
    (h : drawRows (s.indexed 0) (s.reg x).toNat (s.reg y).toNat (List.range n) true s = .raised f t) :
    exec (.drw x y n) s = .next (t.setStatus (.faulted f)) :=
  congrArg (Effect.finish · fun t => (t.emit .present).advance 2) h

/-- After a draw PC stands 2 past where it stood before the rows. -/
theorem DrawKeeps.advanced {s t : State} (h : DrawKeeps s t) : Advanced s ((t.emit .present).advance 2) := by
  have hpc := advanced_advance (t.emit .present)
  rwa [Advanced, State.emit_pc, h.pc] at hpc

end Sys2Proof.Machine
end

section
/-! The statements about the display. -/

namespace Sys2Proof.Proofs

open Sys2Proof Sys2Proof.Machine

/-- Settles O28: a row of the screen is eight whole bytes, and the eight masks of a byte differ. -/
theorem pixelsHaveTheirOwnBits : Obligations.PixelsHaveTheirOwnBits := by
  refine ⟨fun px py hon => ?_, fun px py qx qy hp hq hbyte hmask => ?_, pixelOn_eq⟩
  · obtain ⟨hbyte, hin⟩ := fbByte_inFramebuffer hon
    exact ⟨hbyte, fbMask_toNat px, hin⟩
  · exact pixel_unique hp hq hbyte (mod_eq_of_fbMask_eq hmask)

/-- Settles O29: a run of zeros over the framebuffer, which lies inside memory. -/
theorem clearScreen : Obligations.ClearScreen := by
  intro s
  obtain ⟨m, hm, hend⟩ := cls_stores s
  have hframe := exec_frame hend
  refine ⟨_, hend, fun a ⟨hlow, hhigh⟩ => ?_, hframe.bytes, List.append_assoc _ _ _, advanced_advance _,
    hframe.keepsAllRegs fun _ => rfl, keepsSpecials_rfl s, rfl⟩
  obtain ⟨j, rfl⟩ := Nat.exists_eq_add_of_le hlow
  have hj : j < config.fbSize := by omega
  refine hm.byteAt_of_getElem? ?_ (Nat.lt_of_lt_of_le hhigh config_valid.fbFits)
  rw [List.getElem?_replicate, if_pos hj]
  rfl

/-- Settles O30: no row, so the rows leave the state as it was (`drawRows_done`). -/
theorem drawOfNoRow : Obligations.DrawOfNoRow := by
  intro x y n s hread hnone
  obtain ⟨t, calls, hend, -, -, -, -, hsame, -⟩ := drawRows_done (s.indexed 0) (s.reg x).toNat (s.reg y).toNat s n hread
  rw [hsame hnone] at hend
  exact ⟨_, drw_completes hend, rfl, advanced_advance _, fun _ _ => rfl, fun _ _ => rfl, keepsSpecials_rfl s, rfl⟩

/-- Settles O31: rows that read nothing outside memory complete, and the frame of DRW says what they may change. -/
theorem drawCompletes : Obligations.DrawCompletes := by
  intro x y n s hread
  obtain ⟨t, calls, hend, hkeeps, -, hrender, -, -, -⟩ :=
    drawRows_done (s.indexed 0) (s.reg x).toNat (s.reg y).toNat s n hread
  have hexec := drw_completes hend
  have hframe := exec_frame hexec
  refine ⟨_, hexec, hkeeps.advanced, ⟨calls, ?_⟩, fun r hr => hframe.regs r fun hvf => hr (beq_iff_eq.mp hvf), hframe.bytes,
    hframe.keepsSpecials rfl rfl rfl, hkeeps.status⟩
  rw [State.advance_render, State.emit_render, hrender]

/-- Settles O32: row n is past the bottom and nothing more is drawn, or it is drawn from the state that the n rows left. -/
theorem drawOneMoreRow : Obligations.DrawOneMoreRow := by
  rintro x y n s _ _ rfl rfl hread
  have hrows : RowsReadable (s.indexed 0) (s.reg y).toNat (n + 1) := hread
  obtain ⟨t, calls, ht, -, -, hrender, -, -, -⟩ :=
    drawRows_done (s.indexed 0) (s.reg x).toNat (s.reg y).toNat s n hrows.pred
  obtain ⟨u, _, hu, -, -, -, -, -, hflag⟩ := drawRows_done (s.indexed 0) (s.reg x).toNat (s.reg y).toNat s (n + 1) hrows
  refine ⟨_, _, calls, drw_completes ht, drw_completes hu, ?_, fun hpast => ?_, fun hon hit hhit => ?_⟩
  · rw [State.advance_render, State.emit_render, hrender]
  · rw [drawRows_succ_past_bottom ht hrows hpast] at hu
    cases hu
    rfl
  · obtain ⟨u', hu', hrow⟩ := drawRows_succ_on_screen ht hrows hon
    rw [hu] at hu'
    cases hu'
    obtain rfl : hit = rowHit (t.byteAt (s.indexed n)) (s.reg x).toNat := funext hhit
    refine ⟨fun px py hp => ?_, hflag (Nat.succ_pos n) (by omega), hrow.vf_iff, ?_⟩
    · refine (hrow.pixel px py hp).trans ?_
      rw [rowStart_pixelOn]
      rfl
    · rw [State.advance_render, State.emit_render, hrow.render, rowStart_render, hrender]
      simp only [toggleCall, rowStart_pixelOn]
      rfl

/-- Settles O33: by induction on the rows (`drawRows_drawn`). -/
theorem drawXorsThePicture : Obligations.DrawXorsThePicture := by
  rintro x y n s _ _ rfl rfl hread
  obtain ⟨t, _, ht, -, -, -, -, hnone, hflag⟩ :=
    drawRows_done (s.indexed 0) (s.reg x).toNat (s.reg y).toNat s n hread
  refine ⟨_, drw_completes ht, fun hsame lit hlit => ?_⟩
  obtain rfl : lit = Lit (fun r => s.byteAt (s.indexed r)) (s.reg x).toNat (s.reg y).toNat n :=
    funext₂ fun px py => propext (hlit px py)
  have hdrawn := drawRows_drawn (base := s.indexed 0) hread ht hsame fun _ _ _ => rfl
  refine ⟨hdrawn.pixel, fun h => ?_, fun hn hv => ⟨hflag hn hv, hdrawn.collision hn hv⟩⟩
  rw [State.advance_reg, State.emit_reg, hnone h]

/-- Settles O34: the draw of r rows completes, and the read of row r raises where it ended (`drawRows_raises`). -/
theorem drawPastTheEndFaults : Obligations.DrawPastTheEndFaults := by
  intro x y n r s hreads hout hread
  obtain ⟨t, calls, ht, hkeeps, -, hrender, -, -, -⟩ :=
    drawRows_done (s.indexed 0) (s.reg x).toNat (s.reg y).toNat s r hread
  refine ⟨_, _, calls, drw_completes ht, drw_raises (drawRows_raises ht hreads hout), ?_, ?_⟩
  · rw [State.advance_render, State.emit_render, hrender]
  · rw [← hrender, ← hkeeps.pc]
    rfl

/-- Settles O35: the first draw lights no pixel of its sprite, so the second leaves the sprite too; both light the same pixels,
and a byte without a covered pixel is left by both. -/
theorem drawTwiceRestores : Obligations.DrawTwiceRestores := by
  intro x y n s t u hread hfirst hsame hmem hi hx hy
  obtain ⟨t', _, ht, -, htbytes, -⟩ := drawRows_done (s.indexed 0) (s.reg x).toNat (s.reg y).toNat s n hread
  rw [drw_completes ht] at hfirst
  cases hfirst
  have hubytes : ∀ a, u.byteAt a = t'.byteAt a := fun a => congrArg (Memory.lookup · a) hmem
  have hdrawn := drawRows_drawn (base := s.indexed 0) hread ht hsame fun _ _ _ => rfl
  have hbytes : SameSprite (s.indexed 0) (s.reg y).toNat n s u := fun r hr hon => (hubytes _).trans (hsame r hr hon)
  obtain ⟨w, _, hw, -, hwbytes, -, -, -, hflag⟩ := drawRows_done (s.indexed 0) (s.reg x).toNat (s.reg y).toNat u n hread
  have hagain : SameSprite (s.indexed 0) (s.reg y).toNat n u w :=
    drawRows_sameSprite (fun _ _ _ hlit => hdrawn.fbByte_ne_of_lit hsame hlit) hbytes (Nat.le_refl n) hread hw
  have hdrawn' := drawRows_drawn hread hw hagain hbytes
  have hexec : exec (.drw x y n) u = .next ((w.emit .present).advance 2) :=
    drw_completes (by rw [hx, hy, State.indexed_congr hi, hw])
  refine ⟨_, hexec, fun a => ?_, fun hn hv => ⟨hflag hn hv, (hdrawn'.collision hn hv).trans ?_⟩⟩
  · by_cases hcovered : CoveredByte (s.reg x).toNat (s.reg y).toNat n a
    · obtain ⟨px, py, ⟨hon, -⟩, rfl⟩ := hcovered
      exact byteAt_fbByte_of_pixelOn hon fun _ _ hq => hdrawn.twice hmem hdrawn' hq
    · exact (hwbytes a hcovered).trans ((hubytes a).trans (htbytes a hcovered))
  · refine exists₂_congr fun px py => ?_
    rw [pixelOn_congr (hubytes _)]
    exact hdrawn.turned_on_iff

end Sys2Proof.Proofs
end
